-- ==== Sys2Proof/Config.lean ====
section
/-! DEFINITION. The implementation parameters of R5 and R6 (spec/00_scope.md), at the values this hardware takes.
`memSize` is the only free parameter; the spec fixes it at 1024 (R6, D19). No result of an instruction is left open by
the spec, so there is no free value here. -/

namespace Sys2Proof.Config

/-- `MEM_SIZE`: bytes in the backing buffer (R5). -/
def memSize : Nat := 1024

/-- `TEXT_SIZE`: the first quarter of the buffer (R5). -/
def textSize : Nat := memSize / 4

/-- `DATA_SIZE`: the remaining three quarters (R5). -/
def dataSize : Nat := memSize - textSize

/-- `SLOT_SIZE`: bytes per slot and per instruction (R5, R60). -/
def slotSize : Nat := 4

/-- `TEXT_SLOTS`: instruction slots in the text segment (R5). -/
def textSlots : Nat := textSize / slotSize

/-- What R6 requires of a memory size: whole slots in the text segment, slot indices up to and including the number of
slots within the 8-bit IP, and a 16-bit offset for every data byte. -/
def sizeAllowed (size : Nat) : Bool :=
  size % 16 == 0 && decide (size / 16 ≤ 255) && decide (size - size / 4 ≤ 65536)

@[simp] theorem memSize_eq : memSize = 1024 := rfl
@[simp] theorem textSize_eq : textSize = 256 := rfl
@[simp] theorem dataSize_eq : dataSize = 768 := rfl
@[simp] theorem slotSize_eq : slotSize = 4 := rfl
@[simp] theorem textSlots_eq : textSlots = 64 := rfl

end Sys2Proof.Config
end

