-- ==== Sys2Proof/Word.lean ====
section
/-! DEFINITION. The values the machine moves: bytes, 16-bit offsets, and the four bytes of one instruction slot. Every
value is unsigned (R8, spec/00_scope.md). -/

namespace Sys2Proof

/-- An unsigned 8-bit value: a register, an immediate, a memory byte (R7, R8). -/
abbrev Byte := BitVec 8

/-- An unsigned 16-bit data-segment offset (R8, R66). -/
abbrev Offset := BitVec 16

/-- The four bytes of one instruction slot, in the order the spec numbers them; `b0` is the opcode tag (R10, R61). -/
structure SlotBytes where
  b0 : Byte
  b1 : Byte
  b2 : Byte
  b3 : Byte
  deriving DecidableEq, Repr

end Sys2Proof
end

