-- ==== Sys2Proof/Syntax.lean ====
section
/-! DEFINITION. The registers (R22, spec/10_state.md) and the seven instructions (R11, spec/00_scope.md), one
constructor per row of spec/opcode_table.json. -/

namespace Sys2Proof

/-- The closed enumeration of register identifiers (R22). -/
inductive Reg where
  | r0
  | r1
  | r2
  | r3
  /-- The instruction pointer: a legal encoding (R72), an illegal operand when executed (R120). -/
  | ip
  deriving DecidableEq, Repr

/-- The spec's `Op` (R11). -/
inductive Instr where
  /-- `Nop` (R110). -/
  | nop
  /-- `MoveRegImm` (R121): load an immediate into a register. -/
  | moveRegImm (dst : Reg) (imm : Byte)
  /-- `MoveRegReg` (R122): copy a register into a register. -/
  | moveRegReg (dst src : Reg)
  /-- `MoveMemImm` (R123): store an immediate into a data byte. -/
  | moveMemImm (offset : Offset) (imm : Byte)
  /-- `MoveMemReg` (R124): store a register into a data byte. -/
  | moveMemReg (offset : Offset) (src : Reg)
  /-- `MoveRegMem` (R125): load a data byte into a register. -/
  | moveRegMem (dst : Reg) (offset : Offset)
  /-- `Halt` (R170). -/
  | halt
  deriving DecidableEq, Repr

end Sys2Proof
end

