-- ==== Sys2Proof/Decode.lean ====
section
/-! DEFINITION. The instruction decoder and encoder (spec/30_encoding.md). `decode` is total on any four bytes and rejects
by name (R68, R71); `encode` is total on every instruction (R69). -/

namespace Sys2Proof

/-- Why four bytes are no instruction (R68, R71). -/
inductive Invalid where
  /-- `B0` is none of the seven tags. -/
  | illegalOpcode
  /-- A register field holds a code from 5 to 15. -/
  | illegalRegister
  deriving DecidableEq, Repr

/-- The 4-bit code of a register (R22). -/
def regCode : Reg → BitVec 4
  | .r0 => 0
  | .r1 => 1
  | .r2 => 2
  | .r3 => 3
  | .ip => 4

/-- The register a 4-bit code names: `reg(c)` of R68. -/
def regOf (c : BitVec 4) : Option Reg :=
  if c = 0 then some .r0
  else if c = 1 then some .r1
  else if c = 2 then some .r2
  else if c = 3 then some .r3
  else if c = 4 then some .ip
  else none

/-- The register field of a byte, its low nibble; the high nibble is not read (R64, R67). -/
def regField (b : Byte) : Except Invalid Reg :=
  match regOf (b.extractLsb' 0 4) with
  | some r => .ok r
  | none => .error .illegalRegister

/-- The byte of a register field: the code in the low nibble, 0 in the high one (R64, R69). -/
def regByte (r : Reg) : Byte := (regCode r).setWidth 8

/-- A 16-bit offset from its two bytes, high byte first (R66). -/
def offsetOf (hi lo : Byte) : Offset := hi ++ lo

/-- `o[15:8]`. -/
def offsetHi (o : Offset) : Byte := o.extractLsb' 8 8

/-- `o[7:0]`. -/
def offsetLo (o : Offset) : Byte := o.extractLsb' 0 8

/-- The decoder (R68), on the layout of R62 and R63. -/
def decode (b : SlotBytes) : Except Invalid Instr :=
  if b.b0 = 0x00 then .ok .nop
  else if b.b0 = 0x10 then do
    let d ← regField b.b1
    .ok (.moveRegImm d b.b2)
  else if b.b0 = 0x11 then do
    let d ← regField b.b1
    let s ← regField b.b2
    .ok (.moveRegReg d s)
  else if b.b0 = 0x20 then .ok (.moveMemImm (offsetOf b.b1 b.b2) b.b3)
  else if b.b0 = 0x21 then do
    let s ← regField b.b3
    .ok (.moveMemReg (offsetOf b.b1 b.b2) s)
  else if b.b0 = 0x22 then do
    let d ← regField b.b1
    .ok (.moveRegMem d (offsetOf b.b2 b.b3))
  else if b.b0 = 0xFF then .ok .halt
  else .error .illegalOpcode

/-- The encoder (R69); ignored bytes are 0x00 (R67). -/
def encode : Instr → SlotBytes
  | .nop => ⟨0x00, 0x00, 0x00, 0x00⟩
  | .moveRegImm d v => ⟨0x10, regByte d, v, 0x00⟩
  | .moveRegReg d s => ⟨0x11, regByte d, regByte s, 0x00⟩
  | .moveMemImm o v => ⟨0x20, offsetHi o, offsetLo o, v⟩
  | .moveMemReg o s => ⟨0x21, offsetHi o, offsetLo o, regByte s⟩
  | .moveRegMem d o => ⟨0x22, regByte d, offsetHi o, offsetLo o⟩
  | .halt => ⟨0xFF, 0x00, 0x00, 0x00⟩

/-- The instruction word `W = B0 ++ B1 ++ B2 ++ B3` (R10). -/
def SlotBytes.toWord (b : SlotBytes) : BitVec 32 := b.b0 ++ b.b1 ++ b.b2 ++ b.b3

/-- The four bytes of an instruction word: `B0 = W[31:24]` down to `B3 = W[7:0]` (R10, R61). -/
def SlotBytes.ofWord (w : BitVec 32) : SlotBytes :=
  ⟨w.extractLsb' 24 8, w.extractLsb' 16 8, w.extractLsb' 8 8, w.extractLsb' 0 8⟩

/-- A slot with 0 in every byte and nibble that the decoder does not read, by its tag (R63, R67). -/
def SlotBytes.clearIgnored (b : SlotBytes) : SlotBytes :=
  if b.b0 = 0x00 then ⟨0x00, 0, 0, 0⟩
  else if b.b0 = 0x10 then ⟨0x10, b.b1 &&& 0x0F, b.b2, 0⟩
  else if b.b0 = 0x11 then ⟨0x11, b.b1 &&& 0x0F, b.b2 &&& 0x0F, 0⟩
  else if b.b0 = 0x21 then ⟨0x21, b.b1, b.b2, b.b3 &&& 0x0F⟩
  else if b.b0 = 0x22 then ⟨0x22, b.b1 &&& 0x0F, b.b2, b.b3⟩
  else if b.b0 = 0xFF then ⟨0xFF, 0, 0, 0⟩
  else b

/-- The bytes of the opcode-table word of `nbits` bits `w`: the table numbers the bits of `W`, so `B0` is `w[31:24]`;
bits at and above `nbits` are 0. -/
def tableBytes (nbits w : Nat) : SlotBytes := SlotBytes.ofWord (BitVec.ofNat 32 (w % 2 ^ nbits))

/-- The instruction the decoder reads from an opcode-table word; none where it rejects it. -/
def decodeTableWord (nbits w : Nat) : Option Instr :=
  match decode (tableBytes nbits w) with
  | .ok i => some i
  | .error _ => none

end Sys2Proof
end

