-- ==== Sys2Proof/Machine/State.lean ====
section
/-! DEFINITION. The architectural state (R20, spec/10_state.md), the reasons a step can stop, and the state after reset
(R30). -/

namespace Sys2Proof.Machine

/-- The backing buffer `MEM` (R28) as its bytes that are not 0: addresses strictly rising, no entry 0. An unlisted byte
reads 0, the content reset leaves (R30). -/
abbrev Memory := List Host.Cell

/-- The whole architectural state (R20). -/
structure State where
  /-- General register R0 (R21). -/
  r0 : Byte
  /-- General register R1 (R21). -/
  r1 : Byte
  /-- General register R2 (R21). -/
  r2 : Byte
  /-- General register R3 (R21). -/
  r3 : Byte
  /-- The instruction pointer: the index of the next slot (R24). -/
  ip : Byte
  /-- The fault status register, its three bits the field CAUSE (R27). -/
  fault : BitVec 3
  /-- The backing buffer (R28). -/
  mem : Memory
  deriving DecidableEq, Repr

/-- The spec's fault causes (R181). Raising one is a next state with FAULT written (R182), never a stop of the model. -/
inductive Cause where
  /-- A step with `IP ≥ 64` (R94). -/
  | fetchOutOfRange
  /-- `B0` is none of the seven tags (R71). -/
  | illegalOpcode
  /-- A register field holds 5 to 15 (R71). -/
  | illegalRegister
  /-- A move names IP (R120). -/
  | ipOperand
  /-- A data offset of 768 or more (R46, R47). -/
  | dataOutOfRange
  deriving DecidableEq, Repr

/-- Reasons for the host interface's fault outcome: accesses that the spec says are never issued. No step of the machine
ends in one. -/
inductive Fault where
  /-- Raised by the one-byte buffer accesses of Machine/Ops.lean for a physical address outside `MEM` (R40: both
  primitives are only ever issued inside the buffer). Safe: the model stops where the spec has no behaviour. -/
  | outsideBuffer (address : Nat)
  /-- Raised by the text-slot accesses of Machine/Ops.lean for a slot index of 64 or more (R44, R45: the engine and the
  loader check first). Safe: the model stops where the spec has no behaviour. -/
  | outsideText (slot : Nat)
  deriving DecidableEq, Repr

/-- Reasons for the host interface's refused outcome. -/
inductive Refusal where
  /-- Raised by an arm of Machine/Dispatch.lean whose instruction has no meaning yet; there is no such arm. Safe: the
  model says nothing of that instruction. -/
  | notModelled (mnemonic : String)
  deriving DecidableEq, Repr

/-- Why a stage of a step did not produce its value: the spec's `raise Fault(c)`, or a breach of an access contract. -/
inductive Stop where
  | raise (c : Cause)
  | breach (f : Fault)
  deriving DecidableEq, Repr

/-- The state after construction and after reset (R30, R210, R211): everything 0. -/
def State.reset : State :=
  { r0 := 0, r1 := 0, r2 := 0, r3 := 0, ip := 0, fault := 0, mem := [] }

end Sys2Proof.Machine
end

