-- ==== Sys2Proof/Machine/Ops.lean ====
section
/-! DEFINITION. The named operations over registers and memory: the register file's get and set (R23), one byte of the
buffer (R40), the text and data views and their arbiter (R41 to R48), the advance of IP (R97), and raising a fault
(R181, R182), the one way an exception is taken. -/

namespace Sys2Proof.Machine

/-! ### Register file (R23) -/

/-- `get(r)`: `x[r]`. -/
def State.getReg (s : State) : Reg → Byte
  | .r0 => s.r0
  | .r1 => s.r1
  | .r2 => s.r2
  | .r3 => s.r3
  | .ip => s.ip

/-- `set(r, v)`: `x[r] <- v`. -/
def State.setReg (s : State) (r : Reg) (v : Byte) : State :=
  match r with
  | .r0 => { s with r0 := v }
  | .r1 => { s with r1 := v }
  | .r2 => { s with r2 := v }
  | .r3 => { s with r3 := v }
  | .ip => { s with ip := v }

/-- `x[IP] <- x[IP] + 1`, on the 8-bit register (R97). -/
def State.advanceIp (s : State) : State := s.setReg .ip (s.getReg .ip + 1)

/-! ### The buffer as data -/

/-- The byte at an address; an unlisted byte is 0 (R30). -/
def Memory.read : Memory → Nat → Byte
  | [], _ => 0
  | (k, v) :: m, a => if k = a then v else Memory.read m a

/-- The buffer with no entry at an address. -/
def Memory.erase : Memory → Nat → Memory
  | [], _ => []
  | (k, v) :: m, a => if k = a then Memory.erase m a else (k, v) :: Memory.erase m a

/-- Put an entry in front of the first higher address. -/
def Memory.insert : Memory → Nat → Byte → Memory
  | [], a, v => [(a, v)]
  | (k, w) :: m, a, v => if a < k then (a, v) :: (k, w) :: m else (k, w) :: Memory.insert m a v

/-- The buffer with the byte at an address replaced; writing 0 leaves no entry. -/
def Memory.write (m : Memory) (a : Nat) (v : Byte) : Memory :=
  if v = 0 then Memory.erase m a else Memory.insert (Memory.erase m a) a v

/-- Every address of the list is at least `lo`, addresses rise strictly, no entry is 0, none lies outside `MEM`. -/
def Memory.wfFrom : Memory → Nat → Bool
  | [], _ => true
  | (k, v) :: m, lo =>
    decide (lo ≤ k) && decide (k < Config.memSize) && decide (v ≠ 0) && Memory.wfFrom m (k + 1)

/-- The canonical form of the buffer, so that equal buffers are equal lists. -/
def Memory.wf (m : Memory) : Bool := Memory.wfFrom m 0

/-- The buffer with 0 in every byte: what `clear()` leaves (R48). -/
def Memory.cleared : Memory := []

/-! ### One byte of the buffer (R40) -/

/-- `MemRead(a, 1)`; an address outside `MEM` breaches R40. -/
def memReadByte (s : State) (a : Nat) : Except Fault Byte :=
  if a < Config.memSize then .ok (s.mem.read a) else .error (.outsideBuffer a)

/-- `MemWrite(a, 1, v)`; an address outside `MEM` breaches R40. -/
def memWriteByte (s : State) (a : Nat) (v : Byte) : Except Fault State :=
  if a < Config.memSize then .ok { s with mem := s.mem.write a v } else .error (.outsideBuffer a)

/-! ### The segment arbiter (R43): physical addresses of the two views -/

/-- The physical address of byte `k` of text slot `i` (R41). -/
def textAddr (i k : Nat) : Nat := Config.slotSize * i + k

/-- The physical address of data offset `o` (R42). -/
def dataAddr (o : Offset) : Nat := Config.textSize + o.toNat

/-- `TextRead(i)` (R44): the four bytes in address order; defined for `i < TEXT_SLOTS`. -/
def textRead (s : State) (i : Nat) : Except Fault SlotBytes :=
  if i < Config.textSlots then do
    let b0 ← memReadByte s (textAddr i 0)
    let b1 ← memReadByte s (textAddr i 1)
    let b2 ← memReadByte s (textAddr i 2)
    let b3 ← memReadByte s (textAddr i 3)
    .ok ⟨b0, b1, b2, b3⟩
  else .error (.outsideText i)

/-- `TextWrite(i, [B0, B1, B2, B3])` (R45); defined for `i < TEXT_SLOTS`. -/
def textWrite (s : State) (i : Nat) (b : SlotBytes) : Except Fault State :=
  if i < Config.textSlots then do
    let s0 ← memWriteByte s (textAddr i 0) b.b0
    let s1 ← memWriteByte s0 (textAddr i 1) b.b1
    let s2 ← memWriteByte s1 (textAddr i 2) b.b2
    memWriteByte s2 (textAddr i 3) b.b3
  else .error (.outsideText i)

/-- A buffer access inside a step: its breach is the step's. -/
def inStep {α : Type} : Except Fault α → Except Stop α
  | .ok a => .ok a
  | .error f => .error (.breach f)

/-- `DataRead(o)` (R46): the bound is checked before the read. -/
def dataRead (s : State) (o : Offset) : Except Stop Byte :=
  if Config.dataSize ≤ o.toNat then .error (.raise .dataOutOfRange)
  else inStep (memReadByte s (dataAddr o))

/-- `DataWrite(o, v)` (R47): the bound is checked before the write. -/
def dataWrite (s : State) (o : Offset) (v : Byte) : Except Stop State :=
  if Config.dataSize ≤ o.toNat then .error (.raise .dataOutOfRange)
  else inStep (memWriteByte s (dataAddr o) v)

/-- `clear()` (R48): 0 in every byte of the buffer. -/
def State.clear (s : State) : State := { s with mem := Memory.cleared }

/-! ### Taking a fault (R181, R182) -/

/-- The code of a cause in FAULT.CAUSE (R181). -/
def Cause.code : Cause → BitVec 3
  | .fetchOutOfRange => 1
  | .illegalOpcode => 2
  | .illegalRegister => 3
  | .ipOperand => 4
  | .dataOutOfRange => 5

/-- The cause an undecodable word raises (R95). -/
def invalidCause : Invalid → Cause
  | .illegalOpcode => .illegalOpcode
  | .illegalRegister => .illegalRegister

/-- `raise Fault(c)` (R182): FAULT takes the code and nothing else changes. There is no vector, no saved state and no
return from a fault (R184, R185). -/
def raiseFault (c : Cause) (s : State) : State := { s with fault := c.code }

/-- End a step that began in `s` with what its last stage produced: every effect, or only the raised fault (R93). -/
def settle (s : State) : Except Stop State → Host.Outcome State Fault Refusal
  | .ok t => .next t
  | .error (.raise c) => .next (raiseFault c s)
  | .error (.breach f) => .fault f

end Sys2Proof.Machine
end

