-- ==== Sys2Proof/Machine/Operands.lean ====
section
/-! DEFINITION. The operand check of the moves (R120, spec/42_move.md). The operand forms themselves are a register
(`State.getReg`, `State.setReg`), an immediate, and a data byte (`dataRead`, `dataWrite`) of Machine/Ops.lean. -/

namespace Sys2Proof.Machine

/-- `check_operands`: a register named as `dst` or `src` that is IP raises IpOperand (R120). -/
def checkOperands : List Reg → Except Stop Unit
  | [] => .ok ()
  | r :: rs => if r = .ip then .error (.raise .ipOperand) else checkOperands rs

end Sys2Proof.Machine
end

