-- ==== Sys2Proof/Machine/Halt.lean ====
section
/-! DEFINITION. `Halt` (R170, R171, spec/43_halt.md). -/

namespace Sys2Proof.Machine

/-- `Halt`: no effect, and IP does not advance (R170, R97). -/
def execHalt (s : State) : Host.Outcome State Fault Refusal := settle s (.ok s)

end Sys2Proof.Machine
end

