-- ==== Sys2Proof/Machine/Move.lean ====
section
/-! DEFINITION. The five moves (R120 to R125, spec/42_move.md), each with the advance of IP that follows it (R97). Every
check comes before the first write (R93), and a raised fault keeps nothing but FAULT (R182, `settle`). -/

namespace Sys2Proof.Machine

/-- `MoveRegImm` (R121). -/
def execMoveRegImm (dst : Reg) (imm : Byte) (s : State) : Host.Outcome State Fault Refusal :=
  settle s do
    checkOperands [dst]
    .ok (s.setReg dst imm).advanceIp

/-- `MoveRegReg` (R122). -/
def execMoveRegReg (dst src : Reg) (s : State) : Host.Outcome State Fault Refusal :=
  settle s do
    checkOperands [dst, src]
    let v := s.getReg src
    .ok (s.setReg dst v).advanceIp

/-- `MoveMemImm` (R123). -/
def execMoveMemImm (offset : Offset) (imm : Byte) (s : State) : Host.Outcome State Fault Refusal :=
  settle s do
    let t ← dataWrite s offset imm
    .ok t.advanceIp

/-- `MoveMemReg` (R124). -/
def execMoveMemReg (offset : Offset) (src : Reg) (s : State) : Host.Outcome State Fault Refusal :=
  settle s do
    checkOperands [src]
    let v := s.getReg src
    let t ← dataWrite s offset v
    .ok t.advanceIp

/-- `MoveRegMem` (R125). -/
def execMoveRegMem (dst : Reg) (offset : Offset) (s : State) : Host.Outcome State Fault Refusal :=
  settle s do
    checkOperands [dst]
    let v ← dataRead s offset
    .ok (s.setReg dst v).advanceIp

end Sys2Proof.Machine
end

