-- ==== Sys2Proof/Machine/Nop.lean ====
section
/-! DEFINITION. `Nop` (R110, spec/41_nop.md). -/

namespace Sys2Proof.Machine

/-- `Nop`: no effect but the advance of IP (R110, R97). -/
def execNop (s : State) : Host.Outcome State Fault Refusal := settle s (.ok s.advanceIp)

end Sys2Proof.Machine
end

