-- ==== Sys2Proof/Machine/Dispatch.lean ====
section
/-! DEFINITION. The execute stage (R96, spec/40_engine.md) with the advance of IP (R97): one arm per instruction, each a
call of its meaning. -/

namespace Sys2Proof.Machine

def exec (i : Instr) (s : State) : Host.Outcome State Fault Refusal :=
  match i with
  | .nop => Sys2Proof.Machine.execNop s
  | .moveRegImm dst imm => Sys2Proof.Machine.execMoveRegImm dst imm s
  | .moveRegReg dst src => Sys2Proof.Machine.execMoveRegReg dst src s
  | .moveMemImm offset imm => Sys2Proof.Machine.execMoveMemImm offset imm s
  | .moveMemReg offset src => Sys2Proof.Machine.execMoveMemReg offset src s
  | .moveRegMem dst offset => Sys2Proof.Machine.execMoveRegMem dst offset s
  | .halt => Sys2Proof.Machine.execHalt s

end Sys2Proof.Machine
end

