-- ==== Sys2Proof/Machine/Fetch.lean ====
section
/-! DEFINITION. The fetch and decode stages of a step (R93 to R95, spec/40_engine.md). -/

namespace Sys2Proof.Machine

/-- Read the slot at IP, if there is one, and decode it (R94, R95). -/
def fetch (s : State) : Except Stop Instr :=
  if Config.textSlots ≤ s.ip.toNat then .error (.raise .fetchOutOfRange)
  else do
    let b ← inStep (textRead s s.ip.toNat)
    match decode b with
    | .ok i => .ok i
    | .error e => .error (.raise (invalidCause e))

end Sys2Proof.Machine
end

