-- ==== Sys2Proof/Machine/Step.lean ====
section
/-! DEFINITION. One `step()` of the engine (R93, spec/40_engine.md), and the state with a given word in the slot the next
step fetches. -/

namespace Sys2Proof.Machine

/-- `step()` (R93): nothing in the faulted state (R99); otherwise fetch and decode (R94, R95), then the instruction with
its advance of IP (R96, R97). -/
def step (s : State) : Host.Outcome State Fault Refusal :=
  if s.fault ≠ 0 then .next s
  else
    match fetch s with
    | .ok i => exec i s
    | .error e => settle s (.error e)

/-- `s` ready to fetch: FAULT is 0 (R99), and IP, where it names no slot (R94), is the entry slot 0 (R212). -/
def State.readyToFetch (s : State) : State :=
  { s with fault := 0, ip := if s.ip.toNat < Config.textSlots then s.ip else 0 }

/-- `s` with an opcode-table word in the slot that the next step fetches. It stands for a host `load` of that slot. -/
def State.withFetchWord (s : State) (nbits w : Nat) : State :=
  match textWrite s.readyToFetch s.readyToFetch.ip.toNat (tableBytes nbits w) with
  | .ok t => t
  | .error _ => s.readyToFetch

end Sys2Proof.Machine
end

