-- ==== Sys2Proof/Machine/Flags.lean ====
section
/-! DEFINITION. The KPU has no flags and no instruction reads or writes one (R26, spec/10_state.md), so there is no flag
computation. What stands in their place is the condition of the core, a function of the state (R102,
spec/40_engine.md). -/

namespace Sys2Proof.Machine

/-- The three conditions of the core (R102). -/
inductive RunState where
  | faulted
  | halted
  | running
  deriving DecidableEq, Repr

/-- The condition of the core, in the precedence of R102. -/
def State.runState (s : State) : RunState :=
  if s.fault ≠ 0 then .faulted
  else if fetch s = .ok .halt then .halted
  else .running

end Sys2Proof.Machine
end

