-- ==== Sys2Proof/Machine/HostOps.lean ====
section
/-! DEFINITION. The host interface (R90 to R92, R106, spec/40_engine.md; R210 to R215, spec/70_reset_and_hazards.md): the
five host operations, each one atomic transition, with the results the host sees. The results are outputs, not state
(R20). -/

namespace Sys2Proof.Machine

/-- The result of a step (R92). -/
inductive StepResult where
  /-- `Executed(op)`: the decoded instruction was executed. -/
  | executed (op : Instr)
  /-- `Fault(c)`: the step faulted; the value is that of FAULT after the step. -/
  | fault (code : BitVec 3)
  deriving DecidableEq, Repr

/-- The result of a load (R213, R214). -/
inductive LoadResult where
  | ok
  /-- `LoadError::Size`, carrying the encoded size of the program and nothing else. -/
  | size (bytes : Nat)
  deriving DecidableEq, Repr

/-- The host operations (R90). -/
inductive HostOp where
  | construct
  | load (program : List Instr)
  | step
  | reset
  | observe
  deriving DecidableEq, Repr

/-- What a host operation returns (R90). -/
inductive HostResult where
  | none
  | loaded (r : LoadResult)
  | stepped (r : StepResult)
  | observed (s : State)
  deriving DecidableEq, Repr

/-- The result of the step taken in `s` (R92, R93, R98, R99); none only where the step has no next state. -/
def stepResult (s : State) : Option StepResult :=
  if s.fault ≠ 0 then some (.fault s.fault)
  else
    match fetch s with
    | .error (.raise c) => some (.fault c.code)
    | .error (.breach _) => none
    | .ok i =>
      match exec i s with
      | .next t => if t.fault = 0 then some (.executed i) else some (.fault t.fault)
      | .fault _ => none
      | .refused _ => none

/-- Write a program into successive text slots from slot `j` on (R214). -/
def loadFrom (s : State) (j : Nat) : List Instr → Except Fault State
  | [] => .ok s
  | i :: p => do
    let t ← textWrite s j (encode i)
    loadFrom t (j + 1) p

/-- The encoded size of a program, 4 bytes an instruction, is at most that of the text segment (R213, R215). -/
def programFits (p : List Instr) : Bool := decide (Config.slotSize * p.length ≤ Config.textSize)

/-- `load(program)` (R213, R214): the size check, then the slots from 0 on. -/
def load (program : List Instr) (s : State) : Host.Outcome (State × LoadResult) Fault Refusal :=
  if programFits program then
    match loadFrom s 0 program with
    | .ok t => .next (t, .ok)
    | .error f => .fault f
  else .next (s, .size (Config.slotSize * program.length))

/-- `reset()` (R211): every register, every byte of the buffer and FAULT become 0. -/
def hostReset (s : State) : State :=
  { (((((s.setReg .r0 0).setReg .r1 0).setReg .r2 0).setReg .r3 0).setReg .ip 0).clear with fault := 0 }

/-- One host operation (R90, R91) and its result. -/
def hostOp (op : HostOp) (s : State) : Host.Outcome (State × HostResult) Fault Refusal :=
  match op with
  | .construct => .next (State.reset, .none)
  | .load p =>
    match load p s with
    | .next (t, r) => .next (t, .loaded r)
    | .fault f => .fault f
    | .refused r => .refused r
  | .step =>
    match step s, stepResult s with
    | .next t, some r => .next (t, .stepped r)
    | .next t, none => .next (t, .none)
    | .fault f, _ => .fault f
    | .refused r, _ => .refused r
  | .reset => .next (hostReset s, .none)
  | .observe => .next (s, .observed s)

end Sys2Proof.Machine
end

