-- ==== Sys2Proof/Machine/Text.lean ====
section
/-! DEFINITION. The canonical textual form of an instruction (R74, spec/30_encoding.md): for observability only, no rule of
the machine depends on it. -/

namespace Sys2Proof

/-- How a register prints (R74). -/
def Reg.text : Reg → String
  | .r0 => "r0"
  | .r1 => "r1"
  | .r2 => "r2"
  | .r3 => "r3"
  | .ip => "ip"

/-- A data-segment offset between brackets, in unsigned decimal (R74). -/
def offsetText (o : BitVec 16) : String := "[" ++ toString o.toNat ++ "]"

/-- The canonical textual form, destination first (R74). -/
def Instr.text : Instr → String
  | .nop => "nop"
  | .moveRegImm d v => "move " ++ d.text ++ ", " ++ toString v.toNat
  | .moveRegReg d s => "move " ++ d.text ++ ", " ++ s.text
  | .moveMemImm o v => "move " ++ offsetText o ++ ", " ++ toString v.toNat
  | .moveMemReg o s => "move " ++ offsetText o ++ ", " ++ s.text
  | .moveRegMem d o => "move " ++ d.text ++ ", " ++ offsetText o
  | .halt => "halt"

end Sys2Proof
end

