-- ==== Sys2Proof/WellFormed.lean ====
section
/-! DEFINITION. The checks the spec makes of an instruction beyond its syntax. Every `Instr` is an `Op` of R11 and has an
encoding (R69): its fields have the widths of R63 by their types. What can still be wrong is a register operand that is
IP (R120) and an offset outside the data segment (R46, R47). The meanings make these checks themselves, on the state's
side; the ones here are for claims. -/

namespace Sys2Proof

/-- The registers an instruction names as `dst` or `src` (R120). -/
def Instr.namedRegs : Instr → List Reg
  | .nop => []
  | .moveRegImm d _ => [d]
  | .moveRegReg d s => [d, s]
  | .moveMemImm _ _ => []
  | .moveMemReg _ s => [s]
  | .moveRegMem d _ => [d]
  | .halt => []

/-- The data-segment offset an instruction names, if any. -/
def Instr.offset? : Instr → Option Offset
  | .nop => none
  | .moveRegImm _ _ => none
  | .moveRegReg _ _ => none
  | .moveMemImm o _ => some o
  | .moveMemReg o _ => some o
  | .moveRegMem _ o => some o
  | .halt => none

/-- No operand is IP: the operand check of R120 lets the instruction pass. -/
def Instr.namesNoIp (i : Instr) : Bool := !(i.namedRegs.contains Reg.ip)

/-- The offset, if there is one, names a data byte (R42, R46, R47). -/
def Instr.offsetInData (i : Instr) : Bool :=
  match i.offset? with
  | none => true
  | some o => decide (o.toNat < Config.dataSize)

/-- The instruction executes with no fault of its own (R120, R46, R47). -/
def Instr.wellFormed (i : Instr) : Bool := i.namesNoIp && i.offsetInData

end Sys2Proof
end

