-- ==== Sys2Proof/Safety.lean ====
section
/-! DEFINITION. The terms the claims use: what a state keeps (frames), the invariants of the machine, the end of a run
(R104, spec/40_engine.md), and runs of host operations (R90, R91). -/

namespace Sys2Proof.Machine

/-! ### Frames -/

/-- Every general register outside `dsts` is unchanged from `s` to `t`. -/
def keepsRegsBut (dsts : List Reg) (s t : State) : Prop :=
  ∀ r : Reg, r ≠ .ip → r ∉ dsts → t.getReg r = s.getReg r

/-- Every byte of the buffer outside the addresses `stored` is unchanged from `s` to `t`. -/
def keepsBytesBut (stored : List Nat) (s t : State) : Prop :=
  ∀ a : Nat, a ∉ stored → t.mem.read a = s.mem.read a

/-! ### Views of the buffer, as plain reads -/

/-- The four bytes of text slot `j` (R41). -/
def State.slot (s : State) (j : Nat) : SlotBytes :=
  ⟨s.mem.read (4 * j), s.mem.read (4 * j + 1), s.mem.read (4 * j + 2), s.mem.read (4 * j + 3)⟩

/-- The data byte at offset `o` (R42). -/
def State.dataByte (s : State) (o : Nat) : Byte := s.mem.read (256 + o)

/-! ### Invariants -/

/-- The buffer is in its canonical form, IP is at most 64 (R25), and FAULT holds a legal value (R27). -/
def State.Inv (s : State) : Prop :=
  Memory.wf s.mem = true ∧ s.ip.toNat ≤ 64 ∧ s.fault.toNat ≤ 5

/-- Every text slot holds a word that the encoder writes; the all-zero word is one, that of `Nop` (R73). -/
def State.TextEncoded (s : State) : Prop :=
  ∀ j, j < 64 → ∃ i : Instr, s.slot j = encode i

/-! ### The end of a run (R104) -/

/-- The step taken in `s` ends a run: its result is `Executed(Halt)` or `Fault(_)`. -/
def State.endsRun (s : State) : Bool :=
  match stepResult s with
  | some (.executed .halt) => true
  | some (.fault _) => true
  | _ => false

/-! ### Runs of host operations -/

/-- The state after a list of host operations, from `s`; none where one of them does not answer a next state. -/
def hostRun : List HostOp → State → Option State
  | [], s => some s
  | op :: ops, s =>
    match hostOp op s with
    | .next (t, _) => hostRun ops t
    | .fault _ => none
    | .refused _ => none

/-- The next state of an outcome, if it has one. -/
def nextOf {α : Type} : Host.Outcome α Fault Refusal → Option α
  | .next t => some t
  | .fault _ => none
  | .refused _ => none

end Sys2Proof.Machine
end

