-- ==== Sys2Proof/Certificates/Slice0/Obligations.lean ====
section
/-! DEFINITION. The statements for the provers. Each docstring names the rule of spec/ it formalises. A register field is
the low nibble of its byte, `b.toNat % 16` (R64); the slot at IP is `s.slot s.ip.toNat`, its bytes read one by one at
`4 * IP` to `4 * IP + 3` (R41); the byte at data offset `o` is the byte at `256 + o` (R42). -/

open Sys2Proof Sys2Proof.Machine

/-! ### Registers, codes, reset -/

/-- R22: the codes of the five registers, and that 5 to 15 name none. -/
def Obligations.RegisterCodesNameRegisters : Prop :=
  regOf 0 = some .r0 ∧ regOf 1 = some .r1 ∧ regOf 2 = some .r2 ∧ regOf 3 = some .r3 ∧ regOf 4 = some .ip ∧
  (∀ c : BitVec 4, 5 ≤ c.toNat → regOf c = none) ∧ (∀ r : Reg, regOf (regCode r) = some r)

/-- R23: a register read gives the last value written; a write changes that register and nothing else. -/
def Obligations.RegisterWriteThenRead : Prop :=
  ∀ (s : State) (r : Reg) (v : Byte),
    (s.setReg r v).getReg r = v ∧ (∀ q, q ≠ r → (s.setReg r v).getReg q = s.getReg q) ∧
    (s.setReg r v).mem = s.mem ∧ (s.setReg r v).fault = s.fault

/-- R30, R210, R211: construction and `reset()` leave 0 in every register, in FAULT and in every byte, from any state, and
every slot then decodes to `Nop`. -/
def Obligations.ResetZeroesEverything : Prop :=
  (∀ s, hostReset s = State.reset) ∧ (∀ s, hostOp .construct s = .next (State.reset, .none)) ∧
  (∀ s, hostOp .reset s = .next (State.reset, .none)) ∧
  (∀ r, State.reset.getReg r = 0) ∧ State.reset.fault = 0 ∧ (∀ a, State.reset.mem.read a = 0) ∧
  (∀ j, j < 64 → decode (State.reset.slot j) = .ok .nop)

/-- R212: the entry point is slot 0; with nothing loaded the first step executes its zero word, a `Nop`. -/
def Obligations.FirstStepAfterResetIsSlotZero : Prop :=
  State.reset.ip = 0 ∧ step State.reset = .next { State.reset with ip := 1 } ∧
  stepResult State.reset = some (.executed .nop)

/-! ### Codec -/

/-- R70: decoding what the encoder writes gives the instruction back, for every instruction (one that names IP too); the
converse holds exactly where every ignored bit is 0, and two words can decode alike. -/
def Obligations.DecodeEncodeRoundTrip : Prop :=
  (∀ i : Instr, decode (encode i) = .ok i) ∧
  (∀ (b : SlotBytes) (i : Instr), decode b = .ok i → (encode i = b ↔ b.clearIgnored = b)) ∧
  (∃ b c : SlotBytes, b ≠ c ∧ decode b = .ok .nop ∧ decode c = .ok .nop)

/-- R67: the decoder reads no ignored byte or nibble, and the encoder writes 0 there. -/
def Obligations.IgnoredBitsAreNotRead : Prop :=
  (∀ b : SlotBytes, decode b.clearIgnored = decode b) ∧
  (∀ b c : SlotBytes, b.clearIgnored = c.clearIgnored → decode b = decode c) ∧
  (∀ i : Instr, (encode i).clearIgnored = encode i)

/-- R69: the encoder's bytes for every instruction, with `code(r)` the register code and an offset high byte first. -/
def Obligations.EncoderWritesCanonicalWords : Prop :=
  encode .nop = ⟨0x00, 0x00, 0x00, 0x00⟩ ∧
  (∀ d v, encode (.moveRegImm d v) = ⟨0x10, BitVec.ofNat 8 (regCode d).toNat, v, 0x00⟩) ∧
  (∀ d r, encode (.moveRegReg d r) =
    ⟨0x11, BitVec.ofNat 8 (regCode d).toNat, BitVec.ofNat 8 (regCode r).toNat, 0x00⟩) ∧
  (∀ o v, encode (.moveMemImm o v) = ⟨0x20, BitVec.ofNat 8 (o.toNat / 256), BitVec.ofNat 8 (o.toNat % 256), v⟩) ∧
  (∀ o r, encode (.moveMemReg o r) =
    ⟨0x21, BitVec.ofNat 8 (o.toNat / 256), BitVec.ofNat 8 (o.toNat % 256), BitVec.ofNat 8 (regCode r).toNat⟩) ∧
  (∀ d o, encode (.moveRegMem d o) =
    ⟨0x22, BitVec.ofNat 8 (regCode d).toNat, BitVec.ofNat 8 (o.toNat / 256), BitVec.ofNat 8 (o.toNat % 256)⟩) ∧
  encode .halt = ⟨0xFF, 0x00, 0x00, 0x00⟩

/-- R71: which words are illegal, and that a step that fetches one raises the fault of that name. -/
def Obligations.IllegalEncodingsFault : Prop :=
  (∀ b : SlotBytes, decode b = .error .illegalOpcode ↔ b.b0 ∉ [0x00, 0x10, 0x11, 0x20, 0x21, 0x22, 0xFF]) ∧
  (∀ b : SlotBytes, decode b = .error .illegalRegister ↔
    (b.b0 = 0x10 ∧ 5 ≤ b.b1.toNat % 16) ∨
    (b.b0 = 0x11 ∧ (5 ≤ b.b1.toNat % 16 ∨ 5 ≤ b.b2.toNat % 16)) ∨
    (b.b0 = 0x21 ∧ 5 ≤ b.b3.toNat % 16) ∨
    (b.b0 = 0x22 ∧ 5 ≤ b.b1.toNat % 16)) ∧
  (∀ s : State, s.fault = 0 → s.ip.toNat < 64 → decode (s.slot s.ip.toNat) = .error .illegalOpcode →
    step s = .next { s with fault := 2 }) ∧
  (∀ s : State, s.fault = 0 → s.ip.toNat < 64 → decode (s.slot s.ip.toNat) = .error .illegalRegister →
    step s = .next { s with fault := 3 })

/-- L2.1 (95_test_vectors.md): words written out from R63 decode to the instruction they stand for. -/
def Obligations.SpecWordsDecode : Prop :=
  decode ⟨0x00, 0x12, 0x34, 0x56⟩ = .ok .nop ∧
  decode ⟨0x10, 0xF3, 0x80, 0xFF⟩ = .ok (.moveRegImm .r3 128) ∧
  decode ⟨0x11, 0x24, 0x31, 0x99⟩ = .ok (.moveRegReg .ip .r1) ∧
  decode ⟨0x20, 0x12, 0x34, 0x56⟩ = .ok (.moveMemImm 4660 86) ∧
  decode ⟨0x21, 0x00, 0x00, 0xF3⟩ = .ok (.moveMemReg 0 .r3) ∧
  decode ⟨0x22, 0x01, 0x02, 0xFF⟩ = .ok (.moveRegMem .r1 767) ∧
  decode ⟨0xFF, 0xFF, 0xFF, 0xFF⟩ = .ok .halt

/-- R74: the canonical text of each form; a number prints in unsigned decimal. -/
def Obligations.TextFormsAreCanonical : Prop :=
  Instr.nop.text = "nop" ∧ Instr.halt.text = "halt" ∧
  [Reg.r0, .r1, .r2, .r3, .ip].map Reg.text = ["r0", "r1", "r2", "r3", "ip"] ∧
  (∀ (d : Reg) (v : Byte), (Instr.moveRegImm d v).text = "move " ++ d.text ++ ", " ++ toString v.toNat) ∧
  (∀ d r : Reg, (Instr.moveRegReg d r).text = "move " ++ d.text ++ ", " ++ r.text) ∧
  (∀ (o : Offset) (v : Byte),
    (Instr.moveMemImm o v).text = "move " ++ ("[" ++ toString o.toNat ++ "]") ++ ", " ++ toString v.toNat) ∧
  (∀ (o : Offset) (r : Reg),
    (Instr.moveMemReg o r).text = "move " ++ ("[" ++ toString o.toNat ++ "]") ++ ", " ++ r.text) ∧
  (∀ (d : Reg) (o : Offset),
    (Instr.moveRegMem d o).text = "move " ++ d.text ++ ", " ++ ("[" ++ toString o.toNat ++ "]"))

/-! ### The instructions, each with its frame: what it leaves unchanged -/

/-- R110: `Nop` changes nothing but IP, whatever its ignored bytes; in slot 63 it moves IP to 64, and the next step
faults. -/
def Obligations.NopOnlyAdvancesIp : Prop :=
  (∀ b1 b2 b3 : Byte, decode ⟨0x00, b1, b2, b3⟩ = .ok .nop) ∧ encode .nop = ⟨0x00, 0x00, 0x00, 0x00⟩ ∧
  (∀ s : State, ∃ t, exec .nop s = .next t ∧ t.ip = s.ip + 1 ∧ keepsRegsBut [] s t ∧ t.fault = s.fault ∧
    t.mem = s.mem ∧ keepsBytesBut [] s t) ∧
  (∀ s : State, s.fault = 0 → s.ip = 63 → (s.slot 63).b0 = 0x00 →
    step s = .next { s with ip := 64 } ∧ step { s with ip := 64 } = .next { s with ip := 64, fault := 1 })

/-- R121: `MoveRegImm`. -/
def Obligations.MoveRegImmLoadsImmediate : Prop :=
  (∀ (d : Reg) (b1 b2 b3 : Byte), b1.toNat % 16 = (regCode d).toNat →
    decode ⟨0x10, b1, b2, b3⟩ = .ok (.moveRegImm d b2)) ∧
  (∀ b1 b2 b3 : Byte, 5 ≤ b1.toNat % 16 → decode ⟨0x10, b1, b2, b3⟩ = .error .illegalRegister) ∧
  (∀ (d : Reg) (v : Byte), encode (.moveRegImm d v) = ⟨0x10, BitVec.ofNat 8 (regCode d).toNat, v, 0x00⟩) ∧
  (∀ (d : Reg) (v : Byte) (s : State), d ≠ .ip →
    ∃ t, exec (.moveRegImm d v) s = .next t ∧ t.getReg d = v ∧ t.ip = s.ip + 1 ∧ keepsRegsBut [d] s t ∧
      t.fault = s.fault ∧ t.mem = s.mem ∧ keepsBytesBut [] s t) ∧
  (∀ (v : Byte) (s : State), exec (.moveRegImm .ip v) s = .next { s with fault := 4 })

/-- R122: `MoveRegReg`; with `dst` = `src` the register keeps its value. -/
def Obligations.MoveRegRegCopiesRegister : Prop :=
  (∀ (d r : Reg) (b1 b2 b3 : Byte), b1.toNat % 16 = (regCode d).toNat → b2.toNat % 16 = (regCode r).toNat →
    decode ⟨0x11, b1, b2, b3⟩ = .ok (.moveRegReg d r)) ∧
  (∀ b1 b2 b3 : Byte, 5 ≤ b1.toNat % 16 ∨ 5 ≤ b2.toNat % 16 →
    decode ⟨0x11, b1, b2, b3⟩ = .error .illegalRegister) ∧
  (∀ d r : Reg, encode (.moveRegReg d r) =
    ⟨0x11, BitVec.ofNat 8 (regCode d).toNat, BitVec.ofNat 8 (regCode r).toNat, 0x00⟩) ∧
  (∀ (d r : Reg) (s : State), d ≠ .ip → r ≠ .ip →
    ∃ t, exec (.moveRegReg d r) s = .next t ∧ t.getReg d = s.getReg r ∧ t.getReg r = s.getReg r ∧ t.ip = s.ip + 1 ∧
      keepsRegsBut [d] s t ∧ t.fault = s.fault ∧ t.mem = s.mem ∧ keepsBytesBut [] s t) ∧
  (∀ (d r : Reg) (s : State), d = .ip ∨ r = .ip → exec (.moveRegReg d r) s = .next { s with fault := 4 })

/-- R123, with the bound of R47: `MoveMemImm`. The byte stored to is at `dataAddr o`, which is `256 + o`. -/
def Obligations.MoveMemImmStoresImmediate : Prop :=
  (∀ b1 b2 b3 : Byte,
    decode ⟨0x20, b1, b2, b3⟩ = .ok (.moveMemImm (BitVec.ofNat 16 (b1.toNat * 256 + b2.toNat)) b3)) ∧
  (∀ (o : Offset) (v : Byte),
    encode (.moveMemImm o v) = ⟨0x20, BitVec.ofNat 8 (o.toNat / 256), BitVec.ofNat 8 (o.toNat % 256), v⟩) ∧
  (∀ (o : Offset) (v : Byte) (s : State), o.toNat < 768 →
    ∃ t, exec (.moveMemImm o v) s = .next t ∧ dataAddr o = 256 + o.toNat ∧ t.mem.read (dataAddr o) = v ∧
      keepsBytesBut [dataAddr o] s t ∧ keepsRegsBut [] s t ∧ t.ip = s.ip + 1 ∧ t.fault = s.fault) ∧
  (∀ (o : Offset) (v : Byte) (s : State), 768 ≤ o.toNat → exec (.moveMemImm o v) s = .next { s with fault := 5 })

/-- R124, with the bound of R47: `MoveMemReg`; an IP operand is checked before the offset. -/
def Obligations.MoveMemRegStoresRegister : Prop :=
  (∀ (r : Reg) (b1 b2 b3 : Byte), b3.toNat % 16 = (regCode r).toNat →
    decode ⟨0x21, b1, b2, b3⟩ = .ok (.moveMemReg (BitVec.ofNat 16 (b1.toNat * 256 + b2.toNat)) r)) ∧
  (∀ b1 b2 b3 : Byte, 5 ≤ b3.toNat % 16 → decode ⟨0x21, b1, b2, b3⟩ = .error .illegalRegister) ∧
  (∀ (o : Offset) (r : Reg), encode (.moveMemReg o r) =
    ⟨0x21, BitVec.ofNat 8 (o.toNat / 256), BitVec.ofNat 8 (o.toNat % 256), BitVec.ofNat 8 (regCode r).toNat⟩) ∧
  (∀ (o : Offset) (r : Reg) (s : State), r ≠ .ip → o.toNat < 768 →
    ∃ t, exec (.moveMemReg o r) s = .next t ∧ dataAddr o = 256 + o.toNat ∧
      t.mem.read (dataAddr o) = s.getReg r ∧ keepsBytesBut [dataAddr o] s t ∧ keepsRegsBut [] s t ∧
      t.ip = s.ip + 1 ∧ t.fault = s.fault) ∧
  (∀ (o : Offset) (s : State), exec (.moveMemReg o .ip) s = .next { s with fault := 4 }) ∧
  (∀ (o : Offset) (r : Reg) (s : State), r ≠ .ip → 768 ≤ o.toNat →
    exec (.moveMemReg o r) s = .next { s with fault := 5 })

/-- R125, with the bound of R46: `MoveRegMem`; an IP operand is checked before the offset. -/
def Obligations.MoveRegMemLoadsDataByte : Prop :=
  (∀ (d : Reg) (b1 b2 b3 : Byte), b1.toNat % 16 = (regCode d).toNat →
    decode ⟨0x22, b1, b2, b3⟩ = .ok (.moveRegMem d (BitVec.ofNat 16 (b2.toNat * 256 + b3.toNat)))) ∧
  (∀ b1 b2 b3 : Byte, 5 ≤ b1.toNat % 16 → decode ⟨0x22, b1, b2, b3⟩ = .error .illegalRegister) ∧
  (∀ (d : Reg) (o : Offset), encode (.moveRegMem d o) =
    ⟨0x22, BitVec.ofNat 8 (regCode d).toNat, BitVec.ofNat 8 (o.toNat / 256), BitVec.ofNat 8 (o.toNat % 256)⟩) ∧
  (∀ (d : Reg) (o : Offset) (s : State), d ≠ .ip → o.toNat < 768 →
    ∃ t, exec (.moveRegMem d o) s = .next t ∧ t.getReg d = s.mem.read (256 + o.toNat) ∧ t.ip = s.ip + 1 ∧
      keepsRegsBut [d] s t ∧ t.fault = s.fault ∧ t.mem = s.mem ∧ keepsBytesBut [] s t) ∧
  (∀ (o : Offset) (s : State), exec (.moveRegMem .ip o) s = .next { s with fault := 4 }) ∧
  (∀ (d : Reg) (o : Offset) (s : State), d ≠ .ip → 768 ≤ o.toNat →
    exec (.moveRegMem d o) s = .next { s with fault := 5 })

/-- R170, R103: `Halt` changes nothing, whatever its ignored bytes; every later step executes it again, until the host
loads another instruction into its slot, which the next step then executes. -/
def Obligations.HaltFreezesTheCore : Prop :=
  (∀ b1 b2 b3 : Byte, decode ⟨0xFF, b1, b2, b3⟩ = .ok .halt) ∧ encode .halt = ⟨0xFF, 0x00, 0x00, 0x00⟩ ∧
  (∀ s : State, ∃ t, exec .halt s = .next t ∧ t.ip = s.ip ∧ keepsRegsBut [] s t ∧ t.fault = s.fault ∧
    t.mem = s.mem ∧ keepsBytesBut [] s t) ∧
  (∀ s : State, s.fault = 0 → s.ip.toNat < 64 → (s.slot s.ip.toNat).b0 = 0xFF → ∀ n : Nat,
    core.run n s = .next s ∧ step s = .next s ∧ stepResult s = some (.executed .halt)) ∧
  (∀ (s t : State) (p : List Instr) (i : Instr), s.runState = .halted → load p s = .next (t, .ok) →
    p[s.ip.toNat]? = some i → step t = exec i t)

/-- R171: a halted core leaves the halted condition only by a load that changes the slot at IP, or by a reset; a step
leaves all of its state as it is. (Construction is the making of another core, R210.) -/
def Obligations.HaltedIsLeftOnlyByLoadOrReset : Prop :=
  ∀ (op : HostOp) (s t : State) (r : HostResult), s.runState = .halted → hostOp op s = .next (t, r) →
    (op = .step → t = s) ∧
    (t.runState ≠ .halted → op = .reset ∨ op = .construct ∨
      (∃ p, op = .load p ∧ t.slot s.ip.toNat ≠ s.slot s.ip.toNat))

/-- R120: every move that names IP raises IpOperand, before the offset check, and changes nothing else; `MoveMemImm` is
never checked. -/
def Obligations.IpOperandFaultsFirst : Prop :=
  (∀ (i : Instr) (s : State),
    ((∃ v, i = .moveRegImm .ip v) ∨ (∃ r, i = .moveRegReg .ip r) ∨ (∃ r, i = .moveRegReg r .ip) ∨
      (∃ o, i = .moveMemReg o .ip) ∨ (∃ o, i = .moveRegMem .ip o)) →
    exec i s = .next { s with fault := 4 }) ∧
  (∀ (o : Offset) (v : Byte) (s t : State), exec (.moveMemImm o v) s = .next t → t.fault = 4 → s.fault = 4)

/-! ### The step -/

/-- R93, R96: with no fault held and IP at a slot, a step is `exec` of the instruction the slot decodes to, and nothing
else (the advance of IP is in `exec`). -/
def Obligations.StepRunsDecodedInstruction : Prop :=
  ∀ (s : State) (i : Instr), s.fault = 0 → s.ip.toNat < 64 →
    decode ⟨s.mem.read (4 * s.ip.toNat), s.mem.read (4 * s.ip.toNat + 1), s.mem.read (4 * s.ip.toNat + 2),
      s.mem.read (4 * s.ip.toNat + 3)⟩ = .ok i →
    step s = exec i s

/-- R183, with R94 and R95: the one fault a step reports is the first that applies; with none, the instruction runs. -/
def Obligations.StepReportsFirstFault : Prop :=
  (∀ s : State, s.fault ≠ 0 → step s = .next s ∧ stepResult s = some (.fault s.fault)) ∧
  (∀ s : State, s.fault = 0 → 64 ≤ s.ip.toNat →
    step s = .next { s with fault := 1 } ∧ stepResult s = some (.fault 1)) ∧
  (∀ s : State, s.fault = 0 → s.ip.toNat < 64 →
    (decode (s.slot s.ip.toNat) = .error .illegalOpcode →
      step s = .next { s with fault := 2 } ∧ stepResult s = some (.fault 2)) ∧
    (decode (s.slot s.ip.toNat) = .error .illegalRegister →
      step s = .next { s with fault := 3 } ∧ stepResult s = some (.fault 3)) ∧
    (∀ i, decode (s.slot s.ip.toNat) = .ok i →
      (Reg.ip ∈ i.namedRegs → step s = .next { s with fault := 4 } ∧ stepResult s = some (.fault 4)) ∧
      (Reg.ip ∉ i.namedRegs → (∃ o, i.offset? = some o ∧ 768 ≤ o.toNat) →
        step s = .next { s with fault := 5 } ∧ stepResult s = some (.fault 5)) ∧
      (Reg.ip ∉ i.namedRegs → (∀ o, i.offset? = some o → o.toNat < 768) →
        ∃ t, step s = .next t ∧ t.fault = 0 ∧ stepResult s = some (.executed i))))

/-- R182: a step that raises a fault changes FAULT and nothing else, and FAULT then holds a cause. -/
def Obligations.FaultsArePrecise : Prop :=
  ∀ (s : State) (c : BitVec 3), s.fault = 0 → stepResult s = some (.fault c) →
    step s = .next { s with fault := c } ∧ 1 ≤ c.toNat ∧ c.toNat ≤ 5

/-- R92: every step answers, from every state, with `Executed(op)` for the op decoded at IP, or with `Fault(c)` having
changed nothing but FAULT; from a legal FAULT the code is one of the five causes. -/
def Obligations.StepResultIsExecutedOrFault : Prop :=
  ∀ s : State, ∃ t r, step s = .next t ∧ stepResult s = some r ∧
    ((∃ i, r = .executed i ∧ s.fault = 0 ∧ s.ip.toNat < 64 ∧ decode (s.slot s.ip.toNat) = .ok i ∧ exec i s = .next t ∧
        t.fault = 0) ∨
     (∃ c, r = .fault c ∧ t = { s with fault := c } ∧ c ≠ 0 ∧ (s.fault.toNat ≤ 5 → c.toNat ≤ 5)))

/-- R99: a step taken while FAULT is not 0 changes nothing and returns the held cause. -/
def Obligations.FaultedStepDoesNothing : Prop :=
  ∀ s : State, s.fault ≠ 0 → step s = .next s ∧ stepResult s = some (.fault s.fault) ∧ ∀ n : Nat, core.run n s = .next s

/-- R185: FAULT, once not 0, keeps its value through every step, which changes nothing at all, and every load; a reset
clears it and no other operation does. (Construction is the making of
another core, R210.) -/
def Obligations.FaultIsStickyUntilReset : Prop :=
  ∀ (op : HostOp) (s t : State) (r : HostResult), s.fault ≠ 0 → hostOp op s = .next (t, r) →
    (op ≠ .reset → op ≠ .construct → t.fault = s.fault) ∧ (op = .reset → t.fault = 0) ∧ (op = .step → t = s)

/-- R97, R101: IP advances by exactly 1, without wrapping, after an executed instruction other than `Halt`, and stays
after `Halt` and after a fault. -/
def Obligations.IpAdvancesByOneOrStays : Prop :=
  ∀ s : State, ∃ t, step s = .next t ∧
    (∀ i, stepResult s = some (.executed i) → i ≠ .halt → t.ip = s.ip + 1 ∧ t.ip.toNat = s.ip.toNat + 1 ∧
      t.ip.toNat ≤ 64) ∧
    (stepResult s = some (.executed .halt) → t.ip = s.ip) ∧
    (∀ c, stepResult s = some (.fault c) → t.ip = s.ip)

/-- R102: the condition of the core as a function of its state. -/
def Obligations.RunConditionIsAFunctionOfState : Prop :=
  ∀ s : State,
    (s.runState = .faulted ↔ s.fault ≠ 0) ∧
    (s.runState = .halted ↔ s.fault = 0 ∧ s.ip.toNat < 64 ∧ decode (s.slot s.ip.toNat) = .ok .halt) ∧
    (s.runState = .running ↔
      s.fault = 0 ∧ ¬ (s.ip.toNat < 64 ∧ decode (s.slot s.ip.toNat) = .ok .halt))

/-- The opcode-table words that the host places are the next instruction a step runs, from every state (the model's own
placing, log entry 9). -/
def Obligations.PlacedWordIsTheNextInstruction : Prop :=
  ∀ (s : State) (w : Nat) (i : Instr), decodeTableWord 32 w = some i →
    step (s.withFetchWord 32 w) = exec i (s.withFetchWord 32 w)

/-! ### Memory, segments, loading -/

/-- R44, R46, R47, R48: what the arbiter's paths (R43) read and write. A slot below 64 is the four bytes from `4 * i` on; a
data offset below 768 is the byte at `256 + o`, any other raises DataOutOfRange; `clear()` writes 0 everywhere. The text
paths stay below 256, the data paths from 256 to 1023. -/
def Obligations.ArbiterRoutesEveryAccess : Prop :=
  (∀ (s : State) (i : Nat), i < 64 → textRead s i =
    .ok ⟨s.mem.read (4 * i), s.mem.read (4 * i + 1), s.mem.read (4 * i + 2), s.mem.read (4 * i + 3)⟩) ∧
  (∀ (s : State) (i : Nat) (b : SlotBytes), i < 64 → ∃ t, textWrite s i b = .ok t ∧ t.slot i = b ∧
    keepsBytesBut [4 * i, 4 * i + 1, 4 * i + 2, 4 * i + 3] s t ∧ (∀ r, t.getReg r = s.getReg r) ∧ t.fault = s.fault) ∧
  (∀ (s : State) (o : Offset), o.toNat < 768 → dataRead s o = .ok (s.mem.read (256 + o.toNat))) ∧
  (∀ (s : State) (o : Offset), 768 ≤ o.toNat → dataRead s o = .error (.raise .dataOutOfRange)) ∧
  (∀ (s : State) (o : Offset) (v : Byte), o.toNat < 768 → ∃ t, dataWrite s o v = .ok t ∧
    t.mem.read (256 + o.toNat) = v ∧ keepsBytesBut [256 + o.toNat] s t ∧ (∀ r, t.getReg r = s.getReg r) ∧
    t.fault = s.fault) ∧
  (∀ (s : State) (o : Offset) (v : Byte), 768 ≤ o.toNat → dataWrite s o v = .error (.raise .dataOutOfRange)) ∧
  (∀ (s : State) (a : Nat), s.clear.mem.read a = 0) ∧
  (∀ i k, i < 64 → k < 4 → textAddr i k < 256) ∧
  (∀ o : Offset, o.toNat < 768 → 256 ≤ dataAddr o ∧ dataAddr o < 1024)

/-- Drawn from R45, R49 and R214: no step changes a text byte, no load changes a data byte. The accesses themselves, reads
among them, are in `Obligations.AccessesStayInTheirSegment`. -/
def Obligations.SegmentsAreDisjoint : Prop :=
  (∀ (s t : State), step s = .next t → ∀ a, a < 256 → t.mem.read a = s.mem.read a) ∧
  (∀ (p : List Instr) (s t : State) (r : LoadResult), load p s = .next (t, r) →
    ∀ a, 256 ≤ a → t.mem.read a = s.mem.read a)

/-- R49: every data access that is performed lands in bytes 256 to 1023 and every text access in bytes 0 to 255. A data read
depends on the data bytes alone, a slot read and a fetch on the text bytes alone; a data write leaves every byte outside
256 to 1023 as it was, a slot write every byte outside 0 to 255; so a write through one view is never visible through the
other. -/
def Obligations.AccessesStayInTheirSegment : Prop :=
  (∀ (s u : State) (o : Offset), (∀ a, 256 ≤ a → a < 1024 → s.mem.read a = u.mem.read a) →
    dataRead s o = dataRead u o) ∧
  (∀ (s u : State) (i : Nat), (∀ a, a < 256 → s.mem.read a = u.mem.read a) → textRead s i = textRead u i) ∧
  (∀ s u : State, s.ip = u.ip → (∀ a, a < 256 → s.mem.read a = u.mem.read a) → fetch s = fetch u) ∧
  (∀ (s t : State) (o : Offset) (v : Byte), dataWrite s o v = .ok t →
    (∀ a, a < 256 ∨ 1024 ≤ a → t.mem.read a = s.mem.read a) ∧ (∀ i, textRead t i = textRead s i)) ∧
  (∀ (s t : State) (i : Nat) (b : SlotBytes), textWrite s i b = .ok t →
    (∀ a, 256 ≤ a → t.mem.read a = s.mem.read a) ∧ (∀ o, dataRead t o = dataRead s o))

/-- R213, R215: a program whose encoded size is more than 256 bytes is turned away with that size, nothing changed; one of
64 instructions loads, one of 65 gives size 260. -/
def Obligations.OversizedProgramIsTurnedAway : Prop :=
  (∀ (p : List Instr) (s : State), 64 < p.length → load p s = .next (s, .size (4 * p.length))) ∧
  (∀ (p : List Instr) (s : State), p.length = 64 → ∃ t, load p s = .next (t, .ok)) ∧
  (∀ (p : List Instr) (s : State), p.length = 65 → load p s = .next (s, .size 260))

/-- R214: a load writes the encoded program into slots 0, 1, ... and changes nothing else. -/
def Obligations.LoadWritesProgramOnly : Prop :=
  ∀ (p : List Instr) (s : State), p.length ≤ 64 →
    ∃ t, load p s = .next (t, .ok) ∧ (∀ j i, p[j]? = some i → t.slot j = encode i) ∧
      (∀ a, 4 * p.length ≤ a → t.mem.read a = s.mem.read a) ∧ (∀ r, t.getReg r = s.getReg r) ∧ t.fault = s.fault

/-- R58: the loader's writes are seen by the next fetch: after a load, a step at a loaded slot executes the instruction
that was loaded there. -/
def Obligations.LoadedInstructionIsFetchedNext : Prop :=
  ∀ (p : List Instr) (s t : State) (i : Instr), load p s = .next (t, .ok) → t.fault = 0 →
    p[t.ip.toNat]? = some i → step t = exec i t

/-- R106: observing answers the whole state and changes nothing. -/
def Obligations.ObserveChangesNothing : Prop :=
  ∀ s : State, hostOp .observe s = .next (s, .observed s)

/-! ### Invariants -/

/-- Every step keeps the invariant: canonical buffer, IP at most 64 (R25), a legal FAULT (R27). -/
def Obligations.StepKeepsInv : Prop :=
  ∀ s t : State, s.Inv → step s = .next t → t.Inv

/-- The invariants hold after reset. -/
def Obligations.ResetMeetsInvariants : Prop :=
  State.reset.Inv ∧ State.reset.TextEncoded

/-- Every host operation answers a next state, from every state: no access contract is ever breached (R40, R44, R45). -/
def Obligations.EveryHostOperationCompletes : Prop :=
  ∀ (op : HostOp) (s : State), ∃ t r, hostOp op s = .next (t, r)

/-- Every host operation keeps the invariants, and with them that every text slot holds an encoded word (R25, R73). -/
def Obligations.HostOperationsKeepInvariants : Prop :=
  ∀ (op : HostOp) (s t : State) (r : HostResult), s.Inv → s.TextEncoded → hostOp op s = .next (t, r) →
    t.Inv ∧ t.TextEncoded

/-- R73: through the host interface no illegal word is ever fetched: after any host operations every slot holds a word
that the encoder wrote or the zero word, and decodes, and no step reports IllegalOpcode or IllegalRegister. -/
def Obligations.IllegalWordsAreNeverFetched : Prop :=
  ∀ (ops : List HostOp) (s : State), hostRun ops State.reset = some s →
    (∀ j, j < 64 → ∃ i, s.slot j = encode i ∧ decode (s.slot j) = .ok i) ∧
    stepResult s ≠ some (.fault 2) ∧ stepResult s ≠ some (.fault 3)

/-- R25: the values of IP that host operations reach are exactly 0 to 64, and a step from 64 or above faults. -/
def Obligations.ReachableIpIsZeroToSixtyFour : Prop :=
  (∀ (ops : List HostOp) (s : State), hostRun ops State.reset = some s → s.ip.toNat ≤ 64) ∧
  (∀ n, n ≤ 64 → ∃ ops s, hostRun ops State.reset = some s ∧ s.ip.toNat = n) ∧
  (∀ s : State, s.fault = 0 → 64 ≤ s.ip.toNat → step s = .next { s with fault := 1 }) ∧
  (∀ (s : State) (i : Instr), s.ip = 63 → stepResult s = some (.executed i) → i ≠ .halt →
    ∃ t, step s = .next t ∧ t.ip = 64)

/-! ### Runs -/

/-- R104: once a step's result is `Executed(Halt)` or `Fault(_)`, every further step returns the same result and leaves
the state unchanged. -/
def Obligations.EndedRunStaysEnded : Prop :=
  ∀ s : State, s.endsRun = true → ∃ t, step s = .next t ∧ stepResult t = stepResult s ∧ ∀ n : Nat, core.run n t = .next t

/-- R104: with no branches every run ends within 65 steps of `IP = 0`; from any IP up to 64, within `65 - IP` steps: after
`n` steps, `n` at most `64 - IP`, the next step is the one that ends the run. -/
def Obligations.EveryRunEndsWithinSixtyFiveSteps : Prop :=
  ∀ s : State, ∃ n t, n ≤ 64 - s.ip.toNat ∧ core.run n s = .next t ∧ t.endsRun = true

/-- R101, R26, R49: control does not depend on data. Two states that agree on IP, FAULT and every text byte still agree
on them after any number of steps, and the step after that returns the same result in both. -/
def Obligations.ControlDoesNotDependOnData : Prop :=
  ∀ (n : Nat) (s u s' u' : State), s.ip = u.ip → s.fault = u.fault →
    (∀ a, a < 256 → s.mem.read a = u.mem.read a) → core.run n s = .next s' → core.run n u = .next u' →
    s'.ip = u'.ip ∧ s'.fault = u'.fault ∧ (∀ a, a < 256 → s'.mem.read a = u'.mem.read a) ∧
    stepResult s' = stepResult u'
end

