-- ==== Sys2Proof/Laws/Codec.lean ====
section
/-! SUPPORT. The fields of the codec: register fields, offsets, and the instruction word. -/

namespace Sys2Proof

@[simp] theorem regOf_regCode (r : Reg) : regOf (regCode r) = some r := by cases r <;> rfl

/-- A register code names only the register it is the code of. -/
theorem regCode_of_regOf {c : BitVec 4} {r : Reg} (h : regOf c = some r) : regCode r = c := by
  unfold regOf at h
  split_ifs at h <;> cases h <;> simp_all [regCode]

/-- A 4-bit code names no register exactly when it is 5 or more. -/
theorem regOf_eq_none_iff (c : BitVec 4) : regOf c = none ↔ 5 ≤ c.toNat := by
  revert c
  decide

@[simp] theorem regField_regByte (r : Reg) : regField (regByte r) = .ok r := by cases r <;> rfl

/-! ### Offsets (R66) -/

theorem offsetOf_toNat (a b : Byte) : (offsetOf a b).toNat = a.toNat * 256 + b.toNat := by
  have h := BitVec.toNat_append a b
  have hb : b.toNat < 2 ^ 8 := b.isLt
  rw [← Nat.shiftLeft_add_eq_or_of_lt hb] at h
  simpa [offsetOf, Nat.shiftLeft_eq] using h

theorem offsetHi_toNat (o : Offset) : (offsetHi o).toNat = o.toNat / 256 := by
  have := o.isLt
  simp [offsetHi, Nat.shiftRight_eq_div_pow]
  omega

theorem offsetLo_toNat (o : Offset) : (offsetLo o).toNat = o.toNat % 256 := by
  simp [offsetLo]

theorem offsetOf_split (o : Offset) : offsetOf (offsetHi o) (offsetLo o) = o := by
  apply BitVec.eq_of_toNat_eq
  rw [offsetOf_toNat, offsetHi_toNat, offsetLo_toNat]
  omega

theorem offsetHi_offsetOf (a b : Byte) : offsetHi (offsetOf a b) = a := by
  apply BitVec.eq_of_toNat_eq
  have := b.isLt
  rw [offsetHi_toNat, offsetOf_toNat]
  omega

theorem offsetLo_offsetOf (a b : Byte) : offsetLo (offsetOf a b) = b := by
  apply BitVec.eq_of_toNat_eq
  have := b.isLt
  rw [offsetLo_toNat, offsetOf_toNat]
  omega
/-! ### The instruction word (R10) -/

theorem toWord_toNat (b : SlotBytes) :
    b.toWord.toNat = b.b0.toNat * 2 ^ 24 + b.b1.toNat * 2 ^ 16 + b.b2.toNat * 2 ^ 8 + b.b3.toNat := by
  have h1 := BitVec.toNat_append b.b0 b.b1
  have h2 := BitVec.toNat_append (b.b0 ++ b.b1) b.b2
  have h3 := BitVec.toNat_append (b.b0 ++ b.b1 ++ b.b2) b.b3
  rw [← Nat.shiftLeft_add_eq_or_of_lt b.b1.isLt, Nat.shiftLeft_eq] at h1
  rw [← Nat.shiftLeft_add_eq_or_of_lt b.b2.isLt, Nat.shiftLeft_eq, h1] at h2
  rw [← Nat.shiftLeft_add_eq_or_of_lt b.b3.isLt, Nat.shiftLeft_eq, h2] at h3
  have h : b.toWord.toNat = _ := h3
  rw [h]; omega

theorem ofWord_toWord (b : SlotBytes) : SlotBytes.ofWord b.toWord = b := by
  have h := toWord_toNat b
  have h0 := b.b0.isLt; have h1 := b.b1.isLt; have h2 := b.b2.isLt; have h3 := b.b3.isLt
  obtain ⟨b0, b1, b2, b3⟩ := b
  simp only [SlotBytes.ofWord, SlotBytes.mk.injEq]
  refine ⟨?_, ?_, ?_, ?_⟩ <;> apply BitVec.eq_of_toNat_eq <;>
    simp only [BitVec.extractLsb'_toNat, Nat.shiftRight_eq_div_pow, h] <;> omega

theorem toWord_ofWord (w : BitVec 32) : (SlotBytes.ofWord w).toWord = w := by
  apply BitVec.eq_of_toNat_eq
  have := w.isLt
  simp only [toWord_toNat, SlotBytes.ofWord, BitVec.extractLsb'_toNat, Nat.shiftRight_eq_div_pow]
  omega

end Sys2Proof
end

