-- ==== Sys2Proof/Laws/Memory.lean ====
section
/-! SUPPORT. The buffer: a read after a write, the canonical form, and that canonical buffers are equal when they read
alike. The read laws need no canonical form. -/

namespace Sys2Proof.Machine

/-! ### Reads -/

@[simp] theorem read_cleared (a : Nat) : Memory.read Memory.cleared a = 0 := rfl

theorem read_erase (m : Memory) (a b : Nat) :
    Memory.read (Memory.erase m a) b = if b = a then 0 else Memory.read m b := by
  induction m with
  | nil => simp [Memory.erase, Memory.read]
  | cons c m ih =>
    obtain ⟨k, w⟩ := c
    by_cases hk : k = a
    · rw [Memory.erase, if_pos hk, ih]
      by_cases hb : b = a
      · rw [if_pos hb, if_pos hb]
      · rw [if_neg hb, if_neg hb, Memory.read, if_neg (fun h => hb (h.symm.trans hk))]
    · rw [Memory.erase, if_neg hk, Memory.read, ih, Memory.read]
      by_cases hb : b = a
      · simp only [if_pos hb, if_neg (fun h => hk (h.trans hb) : ¬ k = b)]
      · simp only [if_neg hb]

theorem read_insert (m : Memory) (a b : Nat) (v : Byte) (hm : ∀ w, (a, w) ∉ m) :
    Memory.read (Memory.insert m a v) b = if b = a then v else Memory.read m b := by
  induction m with
  | nil => simp [Memory.insert, Memory.read, eq_comm]
  | cons c m ih =>
    obtain ⟨k, w⟩ := c
    have hk : k ≠ a := fun hk => hm w (by simp [hk])
    by_cases hlt : a < k
    · simp [Memory.insert, hlt, Memory.read, eq_comm]
    · rw [Memory.insert, if_neg hlt, Memory.read, ih fun w hw => hm w (List.mem_cons_of_mem _ hw), Memory.read]
      by_cases hb : b = a
      · simp only [if_pos hb, if_neg (fun h => hk (h.trans hb) : ¬ k = b)]
      · simp only [if_neg hb]

theorem not_mem_erase (m : Memory) (a : Nat) (w : Byte) : (a, w) ∉ Memory.erase m a := by
  induction m with
  | nil => simp [Memory.erase]
  | cons c m ih =>
    obtain ⟨k, x⟩ := c
    by_cases hk : k = a
    · simpa [Memory.erase, hk] using ih
    · simp [Memory.erase, hk, ih, Ne.symm hk]

/-- A read after a write: the value written at its address, and every other byte as before. -/
theorem read_write (m : Memory) (a b : Nat) (v : Byte) :
    Memory.read (Memory.write m a v) b = if b = a then v else Memory.read m b := by
  unfold Memory.write
  by_cases hv : v = 0
  · simp [hv, read_erase]
  · rw [if_neg hv, read_insert _ _ _ _ (not_mem_erase m a)]
    by_cases hb : b = a <;> simp [hb, read_erase]

@[simp] theorem read_write_self (m : Memory) (a : Nat) (v : Byte) : Memory.read (Memory.write m a v) a = v := by
  simp [read_write]

theorem read_write_of_ne (m : Memory) {a b : Nat} (v : Byte) (h : b ≠ a) :
    Memory.read (Memory.write m a v) b = Memory.read m b := by
  simp [read_write, h]

/-! ### The canonical form -/

@[simp] theorem wf_cleared : Memory.wf Memory.cleared = true := rfl

theorem wfFrom_mono {m : Memory} {lo lo' : Nat} (h : lo' ≤ lo) (hm : Memory.wfFrom m lo = true) :
    Memory.wfFrom m lo' = true := by
  cases m with
  | nil => rfl
  | cons c m =>
    obtain ⟨k, v⟩ := c
    simp only [Memory.wfFrom, Bool.and_eq_true, decide_eq_true_eq] at hm ⊢
    exact ⟨⟨⟨by omega, hm.1.1.2⟩, hm.1.2⟩, hm.2⟩

theorem wfFrom_erase {m : Memory} {lo : Nat} (a : Nat) (hm : Memory.wfFrom m lo = true) :
    Memory.wfFrom (Memory.erase m a) lo = true := by
  induction m generalizing lo with
  | nil => rfl
  | cons c m ih =>
    obtain ⟨k, v⟩ := c
    simp only [Memory.wfFrom, Bool.and_eq_true, decide_eq_true_eq] at hm
    by_cases hk : k = a
    · simpa [Memory.erase, hk] using wfFrom_mono (by omega) (ih hm.2)
    · simp only [Memory.erase, if_neg hk, Memory.wfFrom, Bool.and_eq_true, decide_eq_true_eq]
      exact ⟨hm.1, ih hm.2⟩

theorem wfFrom_insert {m : Memory} {lo a : Nat} {v : Byte} (ha : a < Config.memSize) (hv : v ≠ 0) (hlo : lo ≤ a)
    (hm : Memory.wfFrom m lo = true) (hn : ∀ w, (a, w) ∉ m) : Memory.wfFrom (Memory.insert m a v) lo = true := by
  induction m generalizing lo with
  | nil => simp_all [Memory.insert, Memory.wfFrom]
  | cons c m ih =>
    obtain ⟨k, w⟩ := c
    have hk : k ≠ a := fun hk => hn w (by simp [hk])
    simp only [Memory.wfFrom, Bool.and_eq_true, decide_eq_true_eq] at hm
    by_cases hlt : a < k
    · simp only [Memory.insert, if_pos hlt, Memory.wfFrom, Bool.and_eq_true, decide_eq_true_eq]
      exact ⟨⟨⟨hlo, ha⟩, hv⟩, ⟨⟨by omega, hm.1.1.2⟩, hm.1.2⟩, hm.2⟩
    · simp only [Memory.insert, if_neg hlt, Memory.wfFrom, Bool.and_eq_true, decide_eq_true_eq]
      exact ⟨hm.1, ih (by omega) hm.2 fun w hw => hn w (List.mem_cons_of_mem _ hw)⟩

/-- A write inside the buffer keeps the canonical form. -/
theorem wf_write {m : Memory} {a : Nat} (v : Byte) (ha : a < Config.memSize) (hm : Memory.wf m = true) :
    Memory.wf (Memory.write m a v) = true := by
  unfold Memory.wf Memory.write at *
  by_cases hv : v = 0
  · simpa [hv] using wfFrom_erase a hm
  · rw [if_neg hv]
    exact wfFrom_insert ha hv (Nat.zero_le _) (wfFrom_erase a hm) (not_mem_erase m a)

theorem read_below_of_wfFrom {m : Memory} {lo a : Nat} (hm : Memory.wfFrom m lo = true) (ha : a < lo) :
    Memory.read m a = 0 := by
  induction m generalizing lo with
  | nil => rfl
  | cons c m ih =>
    obtain ⟨k, v⟩ := c
    simp only [Memory.wfFrom, Bool.and_eq_true, decide_eq_true_eq] at hm
    have hk : k ≠ a := by omega
    simpa [Memory.read, hk] using ih hm.2 (by omega)

theorem read_outside_of_wfFrom {m : Memory} {lo a : Nat} (hm : Memory.wfFrom m lo = true) (ha : Config.memSize ≤ a) :
    Memory.read m a = 0 := by
  induction m generalizing lo with
  | nil => rfl
  | cons c m ih =>
    obtain ⟨k, v⟩ := c
    simp only [Memory.wfFrom, Bool.and_eq_true, decide_eq_true_eq] at hm
    have hk : k ≠ a := by omega
    simpa [Memory.read, hk] using ih hm.2

theorem eq_of_read_from {m n : Memory} {lo : Nat} (hm : Memory.wfFrom m lo = true) (hn : Memory.wfFrom n lo = true)
    (h : ∀ a, Memory.read m a = Memory.read n a) : m = n := by
  induction m generalizing n lo with
  | nil =>
    cases n with
    | nil => rfl
    | cons c n =>
      obtain ⟨k, v⟩ := c
      simp only [Memory.wfFrom, Bool.and_eq_true, decide_eq_true_eq] at hn
      have := h k
      simp only [Memory.read, if_true] at this
      exact absurd this.symm hn.1.2
  | cons c m ih =>
    obtain ⟨k, v⟩ := c
    simp only [Memory.wfFrom, Bool.and_eq_true, decide_eq_true_eq] at hm
    cases n with
    | nil =>
      have := h k
      simp only [Memory.read, if_true] at this
      exact absurd this hm.1.2
    | cons d n =>
      obtain ⟨l, w⟩ := d
      simp only [Memory.wfFrom, Bool.and_eq_true, decide_eq_true_eq] at hn
      have hkl : k = l := by
        rcases Nat.lt_trichotomy k l with hlt | heq | hgt
        · have := h k
          simp only [Memory.read, if_true, if_neg (show ¬ l = k by omega),
            read_below_of_wfFrom hn.2 (show k < l + 1 by omega)] at this
          exact absurd this hm.1.2
        · exact heq
        · have := h l
          simp only [Memory.read, if_true, if_neg (show ¬ k = l by omega),
            read_below_of_wfFrom hm.2 (show l < k + 1 by omega)] at this
          exact absurd this.symm hn.1.2
      subst hkl
      have hvw : v = w := by simpa [Memory.read] using h k
      have hmn : m = n := by
        refine ih hm.2 hn.2 fun a => ?_
        by_cases ha : k = a
        · rw [← ha, read_below_of_wfFrom hm.2 (by omega), read_below_of_wfFrom hn.2 (by omega)]
        · simpa [Memory.read, ha] using h a
      rw [hvw, hmn]

/-- Canonical buffers that read alike are the same list. -/
theorem eq_of_read {m n : Memory} (hm : Memory.wf m = true) (hn : Memory.wf n = true)
    (h : ∀ a, Memory.read m a = Memory.read n a) : m = n := eq_of_read_from hm hn h

end Sys2Proof.Machine
end

