-- ==== Sys2Proof/Laws/State.lean ====
section
/-! SUPPORT. The small lemmas of the state's updates: one per field per update. -/

namespace Sys2Proof.Machine

section
variable (s : State) (r : Reg) (v : Byte) (c : Cause)

/-! ### setReg -/

@[simp] theorem setReg_mem : (s.setReg r v).mem = s.mem := by cases r <;> rfl
@[simp] theorem setReg_fault : (s.setReg r v).fault = s.fault := by cases r <;> rfl
@[simp] theorem setReg_ip_ip : (s.setReg .ip v).ip = v := rfl
@[simp] theorem setReg_r0_ip : (s.setReg .r0 v).ip = s.ip := rfl
@[simp] theorem setReg_r1_ip : (s.setReg .r1 v).ip = s.ip := rfl
@[simp] theorem setReg_r2_ip : (s.setReg .r2 v).ip = s.ip := rfl
@[simp] theorem setReg_r3_ip : (s.setReg .r3 v).ip = s.ip := rfl

theorem setReg_ip_of_ne (h : r ≠ .ip) : (s.setReg r v).ip = s.ip := by cases r <;> first | rfl | exact absurd rfl h

/-- Reading the register just written gives the value written (R23). -/
@[simp] theorem getReg_setReg_self : (s.setReg r v).getReg r = v := by cases r <;> rfl

/-- Writing a register leaves every other register alone (R23). -/
theorem getReg_setReg_of_ne {q : Reg} (h : q ≠ r) : (s.setReg r v).getReg q = s.getReg q := by
  cases r <;> cases q <;> first | rfl | exact absurd rfl h

@[simp] theorem getReg_ip : s.getReg .ip = s.ip := rfl

/-- The registers do not depend on memory or FAULT. -/
@[simp] theorem getReg_with_mem (m : Memory) : ({ s with mem := m } : State).getReg r = s.getReg r := by
  cases r <;> rfl
@[simp] theorem getReg_with_fault (f : BitVec 3) : ({ s with fault := f } : State).getReg r = s.getReg r := by
  cases r <;> rfl

/-! ### advanceIp -/

@[simp] theorem advanceIp_r0 : s.advanceIp.r0 = s.r0 := rfl
@[simp] theorem advanceIp_r1 : s.advanceIp.r1 = s.r1 := rfl
@[simp] theorem advanceIp_r2 : s.advanceIp.r2 = s.r2 := rfl
@[simp] theorem advanceIp_r3 : s.advanceIp.r3 = s.r3 := rfl
@[simp] theorem advanceIp_ip : s.advanceIp.ip = s.ip + 1 := rfl
@[simp] theorem advanceIp_fault : s.advanceIp.fault = s.fault := rfl
@[simp] theorem advanceIp_mem : s.advanceIp.mem = s.mem := rfl

/-- The advance of IP leaves the general registers alone. -/
theorem getReg_advanceIp (h : r ≠ .ip) : s.advanceIp.getReg r = s.getReg r := getReg_setReg_of_ne s _ _ h

/-! ### raiseFault -/

@[simp] theorem raiseFault_r0 : (raiseFault c s).r0 = s.r0 := rfl
@[simp] theorem raiseFault_r1 : (raiseFault c s).r1 = s.r1 := rfl
@[simp] theorem raiseFault_r2 : (raiseFault c s).r2 = s.r2 := rfl
@[simp] theorem raiseFault_r3 : (raiseFault c s).r3 = s.r3 := rfl
@[simp] theorem raiseFault_ip : (raiseFault c s).ip = s.ip := rfl
@[simp] theorem raiseFault_mem : (raiseFault c s).mem = s.mem := rfl
@[simp] theorem raiseFault_fault : (raiseFault c s).fault = c.code := rfl

/-! ### clear -/

@[simp] theorem clear_r0 : s.clear.r0 = s.r0 := rfl
@[simp] theorem clear_r1 : s.clear.r1 = s.r1 := rfl
@[simp] theorem clear_r2 : s.clear.r2 = s.r2 := rfl
@[simp] theorem clear_r3 : s.clear.r3 = s.r3 := rfl
@[simp] theorem clear_ip : s.clear.ip = s.ip := rfl
@[simp] theorem clear_fault : s.clear.fault = s.fault := rfl
@[simp] theorem clear_mem : s.clear.mem = Memory.cleared := rfl

end

/-- A raised cause is never 0 and never 6 or 7. -/
theorem code_ne_zero (c : Cause) : c.code ≠ 0 := by cases c <;> decide

theorem code_le_five (c : Cause) : c.code.toNat ≤ 5 := by cases c <;> decide

end Sys2Proof.Machine
end

