-- ==== Sys2Proof/Laws/Ops.lean ====
section
/-! SUPPORT. For each shared operation, one lemma that says what it answers: the byte accesses, the text and data views,
the operand check, the fetch, and `settle`. -/

namespace Sys2Proof.Machine

section
variable (s : State)

/-! ### One byte -/

theorem memReadByte_of_lt {a : Nat} (h : a < 1024) : memReadByte s a = .ok (s.mem.read a) := by
  simp [memReadByte, h]

theorem memWriteByte_of_lt {a : Nat} (v : Byte) (h : a < 1024) :
    memWriteByte s a v = .ok { s with mem := s.mem.write a v } := by
  simp [memWriteByte, h]

/-- A byte write answers only the state with that byte replaced, and keeps the canonical form. -/
theorem memWriteByte_ok {a : Nat} {v : Byte} {t : State} (h : memWriteByte s a v = .ok t) :
    t = { s with mem := s.mem.write a v } ∧ (Memory.wf s.mem = true → Memory.wf t.mem = true) := by
  unfold memWriteByte at h
  split at h
  · cases h
    exact ⟨rfl, fun hm => wf_write v ‹_› hm⟩
  · cases h

/-! ### The text view -/

/-- A slot read inside the text segment gives the slot's four bytes. -/
theorem textRead_of_lt {i : Nat} (h : i < 64) : textRead s i = .ok (s.slot i) := by
  have h0 : textAddr i 0 < 1024 := by simp [textAddr]; omega
  have h1 : textAddr i 1 < 1024 := by simp [textAddr]; omega
  have h2 : textAddr i 2 < 1024 := by simp [textAddr]; omega
  have h3 : textAddr i 3 < 1024 := by simp [textAddr]; omega
  unfold textRead
  rw [if_pos (by simpa using h), memReadByte_of_lt s h0, memReadByte_of_lt s h1, memReadByte_of_lt s h2,
    memReadByte_of_lt s h3]
  rfl

theorem textRead_of_ge {i : Nat} (h : 64 ≤ i) : textRead s i = .error (.outsideText i) := by
  unfold textRead
  rw [if_neg (by simpa using h)]

/-- A slot below 64 depends on the text bytes alone. -/
theorem slot_congr {s u : State} {j : Nat} (h : ∀ a, a < 256 → s.mem.read a = u.mem.read a) (hj : j < 64) :
    s.slot j = u.slot j := by
  simp only [State.slot]
  rw [h _ (by omega), h _ (by omega), h _ (by omega), h _ (by omega)]

/-- The buffer after a slot write (R45). -/
def slotWritten (m : Memory) (i : Nat) (b : SlotBytes) : Memory :=
  (((m.write (4 * i) b.b0).write (4 * i + 1) b.b1).write (4 * i + 2) b.b2).write (4 * i + 3) b.b3

theorem textWrite_of_lt {i : Nat} (b : SlotBytes) (h : i < 64) :
    textWrite s i b = .ok { s with mem := slotWritten s.mem i b } := by
  have h0 : textAddr i 0 < 1024 := by simp [textAddr]; omega
  have h1 : textAddr i 1 < 1024 := by simp [textAddr]; omega
  have h2 : textAddr i 2 < 1024 := by simp [textAddr]; omega
  have h3 : textAddr i 3 < 1024 := by simp [textAddr]; omega
  unfold textWrite
  rw [if_pos (by simpa using h), memWriteByte_of_lt s _ h0]
  simp only [bind, Except.bind]
  rw [memWriteByte_of_lt _ _ h1]
  simp only
  rw [memWriteByte_of_lt _ _ h2]
  simp only
  rw [memWriteByte_of_lt _ _ h3]
  rfl

theorem textWrite_of_ge {i : Nat} (b : SlotBytes) (h : 64 ≤ i) : textWrite s i b = .error (.outsideText i) := by
  unfold textWrite
  rw [if_neg (by simpa using h)]

/-- Outside its four bytes a slot write changes no byte. -/
theorem read_slotWritten_of_outside (m : Memory) {i a : Nat} (b : SlotBytes) (h : a < 4 * i ∨ 4 * i + 3 < a) :
    Memory.read (slotWritten m i b) a = Memory.read m a := by
  unfold slotWritten
  rw [read_write_of_ne _ _ (by omega), read_write_of_ne _ _ (by omega), read_write_of_ne _ _ (by omega),
    read_write_of_ne _ _ (by omega)]

theorem wf_slotWritten {m : Memory} {i : Nat} (b : SlotBytes) (h : i < 64) (hm : Memory.wf m = true) :
    Memory.wf (slotWritten m i b) = true := by
  unfold slotWritten
  refine wf_write _ ?_ (wf_write _ ?_ (wf_write _ ?_ (wf_write _ ?_ hm))) <;> simp <;> omega

/-- Slot `j` after a write of slot `i`. -/
theorem slot_slotWritten (i j : Nat) (b : SlotBytes) :
    ({ s with mem := slotWritten s.mem i b } : State).slot j = if j = i then b else s.slot j := by
  by_cases h : j = i
  · subst h
    simp [State.slot, slotWritten, read_write]
  · have ho (k : Nat) (hk : k < 4) :
        Memory.read (slotWritten s.mem i b) (4 * j + k) = Memory.read s.mem (4 * j + k) :=
      read_slotWritten_of_outside _ _ (by omega)
    have h0 := ho 0 (by omega)
    rw [if_neg h]
    simp only [State.slot, ho 1 (by omega), ho 2 (by omega), ho 3 (by omega)]
    simpa using h0

/-- A slot write that answers names a slot, writes its four bytes and keeps the canonical form. -/
theorem textWrite_ok {i : Nat} {b : SlotBytes} {t : State} (h : textWrite s i b = .ok t) :
    i < 64 ∧ t = { s with mem := slotWritten s.mem i b } ∧ (Memory.wf s.mem = true → Memory.wf t.mem = true) := by
  rcases Nat.lt_or_ge i 64 with hi | hi
  · rw [textWrite_of_lt s b hi] at h
    cases h
    exact ⟨hi, rfl, wf_slotWritten b hi⟩
  · rw [textWrite_of_ge s b hi] at h
    cases h

/-! ### The data view -/

theorem dataRead_of_lt {o : Offset} (h : o.toNat < 768) : dataRead s o = .ok (s.dataByte o.toNat) := by
  unfold dataRead
  rw [if_neg (by simp; omega), memReadByte_of_lt s (by simp [dataAddr]; omega)]
  rfl

theorem dataRead_of_ge {o : Offset} (h : 768 ≤ o.toNat) : dataRead s o = .error (.raise .dataOutOfRange) := by
  unfold dataRead
  rw [if_pos (by simpa using h)]

theorem dataWrite_of_lt {o : Offset} (v : Byte) (h : o.toNat < 768) :
    dataWrite s o v = .ok { s with mem := s.mem.write (256 + o.toNat) v } := by
  unfold dataWrite
  rw [if_neg (by simp; omega), memWriteByte_of_lt s v (by simp [dataAddr]; omega)]
  rfl

theorem dataWrite_of_ge {o : Offset} (v : Byte) (h : 768 ≤ o.toNat) :
    dataWrite s o v = .error (.raise .dataOutOfRange) := by
  unfold dataWrite
  rw [if_pos (by simpa using h)]

/-- A data write that answers names a data byte, writes it alone and keeps the canonical form. -/
theorem dataWrite_ok {o : Offset} {v : Byte} {t : State} (h : dataWrite s o v = .ok t) :
    o.toNat < 768 ∧ t = { s with mem := s.mem.write (256 + o.toNat) v } ∧
      (Memory.wf s.mem = true → Memory.wf t.mem = true) := by
  rcases Nat.lt_or_ge o.toNat 768 with ho | ho
  · rw [dataWrite_of_lt s v ho] at h
    cases h
    exact ⟨ho, rfl, wf_write v (by simp only [Config.memSize_eq]; omega)⟩
  · rw [dataWrite_of_ge s v ho] at h
    cases h

theorem wf_clear : Memory.wf s.clear.mem = true := rfl

theorem wf_reset : Memory.wf State.reset.mem = true := rfl

/-! ### The operand check -/

/-- The operand check passes exactly when no named register is IP. -/
theorem checkOperands_eq (rs : List Reg) :
    checkOperands rs = if rs.contains .ip then .error (.raise .ipOperand) else .ok () := by
  induction rs with
  | nil => rfl
  | cons r rs ih =>
    unfold checkOperands
    rw [ih]
    cases r <;> simp

/-! ### The size check of a load -/

theorem programFits_iff (p : List Instr) : programFits p = true ↔ p.length ≤ 64 := by
  have h : programFits p = true ↔ 4 * p.length ≤ 256 := ⟨of_decide_eq_true, decide_eq_true⟩
  rw [h]
  omega

/-! ### settle -/

/-- `settle` answers a next state in two ways only: the stage's state, or the start state with a fault raised. -/
theorem settle_next {e : Except Stop State} {t : State} (h : settle s e = .next t) :
    e = .ok t ∨ ∃ c, e = .error (.raise c) ∧ t = raiseFault c s := by
  match e, h with
  | .ok _, rfl => exact .inl rfl
  | .error (.raise c), rfl => exact .inr ⟨c, rfl, rfl⟩
  | .error (.breach _), h => cases h

/-! ### Fetch -/

theorem fetch_of_ge (h : 64 ≤ s.ip.toNat) : fetch s = .error (.raise .fetchOutOfRange) := by
  unfold fetch
  rw [if_pos (by simpa using h)]

/-- Below 64, the fetch is the decoder on the slot at IP. -/
theorem fetch_of_lt (h : s.ip.toNat < 64) :
    fetch s = match decode (s.slot s.ip.toNat) with
      | .ok i => .ok i
      | .error e => .error (.raise (invalidCause e)) := by
  unfold fetch
  rw [if_neg (by simp; omega), textRead_of_lt s h]
  rfl

/-- A fetched instruction: IP names a slot, and the slot decodes to it. -/
theorem fetch_ok {i : Instr} (h : fetch s = .ok i) : s.ip.toNat < 64 ∧ decode (s.slot s.ip.toNat) = .ok i := by
  rcases Nat.lt_or_ge s.ip.toNat 64 with hlt | hge
  · refine ⟨hlt, ?_⟩
    rw [fetch_of_lt s hlt] at h
    split at h
    · cases h
      assumption
    · cases h
  · rw [fetch_of_ge s hge] at h
    cases h

/-- A failed fetch raises a cause; it never breaches an access contract. -/
theorem fetch_error {e : Stop} (h : fetch s = .error e) : ∃ c, e = .raise c := by
  rcases Nat.lt_or_ge s.ip.toNat 64 with hlt | hge
  · rw [fetch_of_lt s hlt] at h
    split at h
    · cases h
    · cases h
      exact ⟨_, rfl⟩
  · rw [fetch_of_ge s hge] at h
    cases h
    exact ⟨_, rfl⟩

end

end Sys2Proof.Machine
end

