-- ==== Sys2Proof/Laws/Exec.lean ====
section
/-! SUPPORT. What the execute stage and a step can do, said once: `exec_eq` and `step_eq`. Proofs cite these and do not
unfold the meanings. -/

namespace Sys2Proof.Machine

/-- The state after an instruction whose operand checks pass. -/
def effect : Instr → State → State
  | .nop, s => s.advanceIp
  | .moveRegImm d v, s => (s.setReg d v).advanceIp
  | .moveRegReg d r, s => (s.setReg d (s.getReg r)).advanceIp
  | .moveMemImm o v, s => State.advanceIp { s with mem := s.mem.write (256 + o.toNat) v }
  | .moveMemReg o r, s => State.advanceIp { s with mem := s.mem.write (256 + o.toNat) (s.getReg r) }
  | .moveRegMem d o, s => (s.setReg d (s.dataByte o.toNat)).advanceIp
  | .halt, s => s

/-- Every outcome of the execute stage: IpOperand, else DataOutOfRange, else the instruction's effect. -/
theorem exec_eq (i : Instr) (s : State) :
    exec i s = .next (if i.namesNoIp then if i.offsetInData then effect i s else raiseFault .dataOutOfRange s
      else raiseFault .ipOperand s) := by
  cases i with
  | nop => rfl
  | halt => rfl
  | moveRegImm d v =>
    simp only [exec, execMoveRegImm, checkOperands_eq, Instr.namesNoIp, Instr.offsetInData, Instr.namedRegs,
      Instr.offset?]
    cases d <;> rfl
  | moveRegReg d r =>
    simp only [exec, execMoveRegReg, checkOperands_eq, Instr.namesNoIp, Instr.offsetInData, Instr.namedRegs,
      Instr.offset?]
    cases d <;> cases r <;> rfl
  | moveMemImm o v =>
    simp only [exec, execMoveMemImm, Instr.namesNoIp, Instr.offsetInData, Instr.namedRegs, Instr.offset?]
    rcases Nat.lt_or_ge o.toNat 768 with h | h
    · rw [dataWrite_of_lt s v h]
      simp [h, effect, settle, bind, Except.bind]
    · rw [dataWrite_of_ge s v h]
      simp [Nat.not_lt.mpr h, settle, bind, Except.bind]
  | moveMemReg o r =>
    simp only [exec, execMoveMemReg, checkOperands_eq, Instr.namesNoIp, Instr.offsetInData, Instr.namedRegs,
      Instr.offset?]
    rcases Nat.lt_or_ge o.toNat 768 with h | h
    · rw [dataWrite_of_lt s _ h]
      cases r <;> simp [h, effect, settle, bind, Except.bind]
    · rw [dataWrite_of_ge s _ h]
      cases r <;> simp [Nat.not_lt.mpr h, settle, bind, Except.bind]
  | moveRegMem d o =>
    simp only [exec, execMoveRegMem, checkOperands_eq, Instr.namesNoIp, Instr.offsetInData, Instr.namedRegs,
      Instr.offset?]
    rcases Nat.lt_or_ge o.toNat 768 with h | h
    · rw [dataRead_of_lt s h]
      cases d <;> simp [h, effect, settle, bind, Except.bind]
    · rw [dataRead_of_ge s h]
      cases d <;> simp [Nat.not_lt.mpr h, settle, bind, Except.bind]

theorem step_of_faulted {s : State} (h : s.fault ≠ 0) : step s = .next s := if_pos h

theorem step_of_fetched {s : State} {i : Instr} (h : s.fault = 0) (hi : fetch s = .ok i) : step s = exec i s := by
  simp [step, h, hi]

theorem step_of_raised {s : State} {c : Cause} (h : s.fault = 0) (hc : fetch s = .error (.raise c)) :
    step s = .next (raiseFault c s) := by
  simp [step, h, hc, settle]

/-- Every way a step reaches its next state. -/
theorem step_cases {s t : State} (h : step s = .next t) :
    (s.fault ≠ 0 ∧ t = s) ∨
    (s.fault = 0 ∧ ∃ c, t = raiseFault c s) ∨
    (s.fault = 0 ∧ ∃ i, fetch s = .ok i ∧ i.namesNoIp = true ∧ i.offsetInData = true ∧ t = effect i s) := by
  by_cases hf : s.fault = 0
  · cases hi : fetch s with
    | error e =>
      obtain ⟨c, rfl⟩ := fetch_error s hi
      rw [step_of_raised hf hi] at h
      cases h
      exact .inr (.inl ⟨hf, c, rfl⟩)
    | ok i =>
      rw [step_of_fetched hf hi, exec_eq] at h
      cases h
      cases hn : i.namesNoIp
      · exact .inr (.inl ⟨hf, _, by simp; rfl⟩)
      · cases ho : i.offsetInData
        · exact .inr (.inl ⟨hf, _, by simp; rfl⟩)
        · exact .inr (.inr ⟨hf, i, rfl, hn, ho, by simp⟩)
  · rw [step_of_faulted hf] at h
    cases h
    exact .inl ⟨hf, rfl⟩

end Sys2Proof.Machine
end

