-- ==== Sys2Proof/Laws/PerInstr.lean ====
section
/-! SUPPORT. Statements about every instruction, one lemma per constructor. `EncodesCanonically`: the encoder writes the
instruction's tag (R62) and 0 in every ignored byte and nibble (R67, spec/30_encoding.md). -/

namespace Sys2Proof.Laws.EncodesCanonically

/-- The tag of R62. -/
def tag : Instr → Byte
  | .nop => 0x00
  | .moveRegImm _ _ => 0x10
  | .moveRegReg _ _ => 0x11
  | .moveMemImm _ _ => 0x20
  | .moveMemReg _ _ => 0x21
  | .moveRegMem _ _ => 0x22
  | .halt => 0xFF

def Statement (i : Instr) : Prop := (encode i).b0 = tag i ∧ (encode i).clearIgnored = encode i

/-- A register byte has 0 in its high nibble. -/
theorem regByte_low (r : Reg) : regByte r &&& 15#8 = regByte r := by cases r <;> rfl

theorem nop : Statement .nop := ⟨rfl, rfl⟩

theorem moveRegImm (dst : Reg) (imm : Byte) : Statement (.moveRegImm dst imm) :=
  ⟨rfl, by simp [SlotBytes.clearIgnored, encode, regByte_low]⟩

theorem moveRegReg (dst src : Reg) : Statement (.moveRegReg dst src) :=
  ⟨rfl, by simp [SlotBytes.clearIgnored, encode, regByte_low]⟩

theorem moveMemImm (offset : Offset) (imm : Byte) : Statement (.moveMemImm offset imm) := ⟨rfl, rfl⟩

theorem moveMemReg (offset : Offset) (src : Reg) : Statement (.moveMemReg offset src) :=
  ⟨rfl, by simp [SlotBytes.clearIgnored, encode, regByte_low]⟩

theorem moveRegMem (dst : Reg) (offset : Offset) : Statement (.moveRegMem dst offset) :=
  ⟨rfl, by simp [SlotBytes.clearIgnored, encode, regByte_low]⟩

theorem halt : Statement .halt := ⟨rfl, rfl⟩

end Sys2Proof.Laws.EncodesCanonically
end

