-- ==== Sys2Proof/Laws/WellFormed.lean ====
section
/-! SUPPORT. What each check of WellFormed.lean says. -/

namespace Sys2Proof

theorem namesNoIp_iff (i : Instr) : i.namesNoIp = true ↔ Reg.ip ∉ i.namedRegs := by
  simp [Instr.namesNoIp]

theorem offsetInData_iff (i : Instr) : i.offsetInData = true ↔ ∀ o, i.offset? = some o → o.toNat < 768 := by
  unfold Instr.offsetInData
  cases i.offset? with
  | none => exact ⟨fun _ _ h => (nomatch h), fun _ => rfl⟩
  | some o => exact ⟨fun h _ ho => Option.some.inj ho ▸ of_decide_eq_true h, fun h => decide_eq_true (h o rfl)⟩

theorem wellFormed_iff (i : Instr) :
    i.wellFormed = true ↔ Reg.ip ∉ i.namedRegs ∧ ∀ o, i.offset? = some o → o.toNat < 768 := by
  rw [← namesNoIp_iff, ← offsetInData_iff]
  simp [Instr.wellFormed]

end Sys2Proof
end

