-- ==== Sys2Proof/Tests/Slice0.lean ====
section
/-! SUPPORT. The model's own tests. Expected results come from spec/: the encodings of 30_encoding.md written out by hand,
the vectors of 95_test_vectors.md, and the rules' own examples. `witness_<name>` meets the hypotheses of the obligation of
that name, one part for each of its clauses, at the ends of the clause's range. -/

namespace Sys2Proof.Tests

open Sys2Proof Sys2Proof.Machine

/-! ### Small states -/

/-- The buffer with one slot written. -/
def slotMem (m : Memory) (j : Nat) (b : SlotBytes) : Memory :=
  (((m.write (4 * j) b.b0).write (4 * j + 1) b.b1).write (4 * j + 2) b.b2).write (4 * j + 3) b.b3

/-- The state after reset, with IP at `ip` and the slot there holding `b`. -/
def at_ (ip : Byte) (b : SlotBytes) : State := { State.reset with ip := ip, mem := slotMem [] ip.toNat b }

/-! ### WellFormed: each check refuses an ill-formed term -/

theorem test_wellFormed_last_offset : (Instr.moveMemReg 767 .r3).wellFormed = true := by decide
theorem test_wellFormed_refuses_ip : (Instr.moveRegReg .r0 .ip).wellFormed = false := by decide
theorem test_namesNoIp_refuses_ip_dst : (Instr.moveRegMem .ip 0).namesNoIp = false := by decide
theorem test_offsetInData_refuses_768 : (Instr.moveMemImm 768 1).offsetInData = false := by decide
theorem test_programFits_refuses_65 : programFits (List.replicate 65 .nop) = false := by decide
theorem test_sizeAllowed : Config.sizeAllowed Config.memSize = true ∧ Config.sizeAllowed 1000 = false ∧
    Config.sizeAllowed 4096 = false := by decide

/-! ### Decoding: words written out bit by bit from R63 -/

theorem test_decode_nop : decodeTableWord 32 0b00000000000000000000000000000000 = some .nop := by decide
theorem test_decode_moveRegImm :
    decodeTableWord 32 0b00010000000000101111111100000000 = some (.moveRegImm .r2 255) := by decide
theorem test_decode_moveRegReg :
    decodeTableWord 32 0b00010001000000010000000000000000 = some (.moveRegReg .r1 .r0) := by decide
theorem test_decode_moveMemImm :
    decodeTableWord 32 0b00100000000000000001001100101010 = some (.moveMemImm 19 42) := by decide
theorem test_decode_moveMemReg :
    decodeTableWord 32 0b00100001000000000001001100000001 = some (.moveMemReg 19 .r1) := by decide
theorem test_decode_moveRegMem :
    decodeTableWord 32 0b00100010000000110000000000010011 = some (.moveRegMem .r3 19) := by decide
theorem test_decode_halt : decodeTableWord 32 0b11111111000000000000000000000000 = some .halt := by decide

/-- L2.1: ignored bytes and nibbles. -/
theorem test_decode_ignored :
    decode ⟨0x10, 0x50, 0x01, 0x00⟩ = .ok (.moveRegImm .r0 1) ∧ decode ⟨0x22, 0x10, 0x00, 0x00⟩ = .ok (.moveRegMem .r0 0) ∧
    decode ⟨0x10, 0xF1, 0x05, 0xAA⟩ = .ok (.moveRegImm .r1 5) := by decide

/-- L2.1: rejected by name. -/
theorem test_decode_invalid :
    decode ⟨0x10, 0x05, 0x01, 0x00⟩ = .error .illegalRegister ∧ decode ⟨0x11, 0x0A, 0x01, 0x00⟩ = .error .illegalRegister ∧
    decode ⟨0x11, 0x02, 0x07, 0x00⟩ = .error .illegalRegister ∧ decode ⟨0x21, 0x00, 0x00, 0x05⟩ = .error .illegalRegister ∧
    decode ⟨0x12, 0x00, 0x00, 0x00⟩ = .error .illegalOpcode ∧ decode ⟨0xFE, 0x00, 0x00, 0x00⟩ = .error .illegalOpcode := by
  decide

/-- L2.2. -/
theorem test_encode :
    encode (.moveRegImm .r2 255) = ⟨0x10, 0x02, 0xFF, 0x00⟩ ∧ encode (.moveRegReg .r3 .r3) = ⟨0x11, 0x03, 0x03, 0x00⟩ ∧
    encode (.moveMemReg 768 .r2) = ⟨0x21, 0x03, 0x00, 0x02⟩ ∧ encode (.moveRegMem .r0 65535) = ⟨0x22, 0x00, 0xFF, 0xFF⟩ ∧
    encode (.moveRegImm .ip 7) = ⟨0x10, 0x04, 0x07, 0x00⟩ := by decide

/-- L1.7. -/
theorem test_text : (Instr.moveRegImm .r0 19).text = "move r0, 19" ∧ (Instr.moveMemReg 19 .r0).text = "move [19], r0" := by
  decide

/-! ### Steps: the vectors of L2.3 to L2.6 -/

theorem test_nop_last_slot : nextOf (step (at_ 63 ⟨0, 0, 0, 0⟩)) = some { at_ 63 ⟨0, 0, 0, 0⟩ with ip := 64 } := by decide
theorem test_fetch_fault :
    nextOf (step { State.reset with ip := 64 }) = some { State.reset with ip := 64, fault := 1 } := by decide
theorem test_illegal_opcode : (nextOf (step (at_ 10 ⟨0x01, 0, 0, 0⟩))).map (fun t => (t.ip, t.fault)) = some (10, 2) := by
  decide
theorem test_illegal_register :
    (nextOf (step (at_ 3 ⟨0x11, 0x02, 0x0C, 0⟩))).map (fun t => (t.ip, t.fault)) = some (3, 3) := by decide
theorem test_held_fault :
    nextOf (step { at_ 5 ⟨0xFF, 0, 0, 0⟩ with fault := 5 }) = some { at_ 5 ⟨0xFF, 0, 0, 0⟩ with fault := 5 } := by decide
theorem test_moveRegImm :
    (nextOf (step (at_ 0 ⟨0x10, 0x02, 0xFF, 0⟩))).map (fun t => (t.r2, t.ip)) = some (255, 1) := by decide
theorem test_moveRegImm_ip :
    (nextOf (step (at_ 0 ⟨0x10, 0x04, 0x05, 0⟩))).map (fun t => (t.ip, t.fault)) = some (0, 4) := by decide
theorem test_moveRegReg :
    (nextOf (step { at_ 0 ⟨0x11, 0x00, 0x01, 0⟩ with r1 := 4 })).map (fun t => (t.r0, t.r1, t.ip)) = some (4, 4, 1) := by
  decide
theorem test_moveRegReg_ip :
    (nextOf (step { at_ 0 ⟨0x11, 0x00, 0x04, 0⟩ with r0 := 9 })).map (fun t => (t.r0, t.ip, t.fault)) = some (9, 0, 4) := by
  decide
theorem test_moveMemImm_first :
    (nextOf (step (at_ 0 ⟨0x20, 0x00, 0x00, 0xEE⟩))).map (fun t => (t.mem.read 256, t.mem.read 255, t.ip)) =
      some (238, 0, 1) := by decide
theorem test_moveMemImm_outside :
    (nextOf (step (at_ 0 ⟨0x20, 0x03, 0x00, 0x01⟩))).map (fun t => (t.ip, t.fault)) = some (0, 5) := by decide
theorem test_moveMemReg :
    (nextOf (step { at_ 0 ⟨0x21, 0x01, 0x00, 0x03⟩ with r3 := 200 })).map (fun t => (t.mem.read 512, t.r3, t.ip)) =
      some (200, 200, 1) := by decide
theorem test_moveMemReg_ip_before_offset :
    (nextOf (step (at_ 0 ⟨0x21, 0xFF, 0xFF, 0x04⟩))).map (fun t => t.fault) = some 4 := by decide
theorem test_moveRegMem_last :
    (nextOf (exec (.moveRegMem .r1 767) { State.reset with mem := [(1023, 77)] })).map
      (fun t => (t.r1, t.mem.read 1023, t.ip)) = some (77, 77, 1) := by decide
theorem test_moveRegMem_outside :
    (nextOf (step { at_ 0 ⟨0x22, 0x01, 0x03, 0x00⟩ with r1 := 8 })).map (fun t => (t.r1, t.ip, t.fault)) =
      some (8, 0, 5) := by decide
theorem test_halt_last_slot : nextOf (step (at_ 63 ⟨0xFF, 0x12, 0x34, 0x56⟩)) = some (at_ 63 ⟨0xFF, 0x12, 0x34, 0x56⟩) := by
  decide
theorem test_step_result :
    stepResult (at_ 63 ⟨0xFF, 0x12, 0x34, 0x56⟩) = some (.executed .halt) ∧
    stepResult (at_ 0 ⟨0x20, 0x03, 0x00, 0x01⟩) = some (.fault 5) := by decide

/-! ### Loader and reset: L2.7 -/

theorem test_load_keeps_the_rest :
    (nextOf (load [.moveRegImm .r2 3] { at_ 2 ⟨0xFF, 0, 0, 0⟩ with fault := 4 })).map
      (fun p => (p.1.slot 0, p.1.slot 2, p.1.ip, p.1.fault, p.2)) =
    some (⟨0x10, 0x02, 0x03, 0x00⟩, ⟨0xFF, 0, 0, 0⟩, 2, 4, .ok) := by decide
theorem test_load_65 : (nextOf (load (List.replicate 65 .halt) State.reset)).map Prod.snd = some (.size 260) := by decide
theorem test_reset :
    hostReset { State.reset with fault := 3, ip := 17, r0 := 1, mem := [(261, 9)] } = State.reset := by decide

/-- The memory's canonical form: writing 0 removes the entry, and entries stay in order. -/
theorem test_memory_canonical :
    Memory.write (Memory.write (Memory.write [] 5 1) 3 2) 5 0 = [(3, 2)] ∧ Memory.wf [(3, 2), (5, 1)] = true ∧
    Memory.wf [(5, 1), (3, 2)] = false ∧ Memory.wf [(3, 0)] = false ∧ Memory.wf [(1024, 1)] = false := by decide

/-! ### The placed word -/

/-- From a faulted state with IP outside the text segment, the placed word is still the next instruction. -/
theorem test_withFetchWord :
    (nextOf (step (({ State.reset with fault := 1, ip := 64, r0 := 9 } : State).withFetchWord 32 0x10020700))).map
      (fun t => (t.r2, t.r0, t.ip, t.fault)) = some (7, 9, 1, 0) := by decide

/-! ### Witnesses -/

theorem witness_RegisterCodesNameRegisters : 5 ≤ (5 : BitVec 4).toNat ∧ 5 ≤ (15 : BitVec 4).toNat := by decide

theorem witness_RegisterWriteThenRead : Reg.ip ≠ Reg.r0 ∧ Reg.r3 ≠ Reg.r2 := by decide

theorem witness_ResetZeroesEverything : 0 < 64 ∧ 63 < 64 := by decide

theorem witness_DecodeEncodeRoundTrip :
    decode ⟨0x10, 0xF3, 0x80, 0xFF⟩ = .ok (.moveRegImm .r3 128) ∧ decode ⟨0x10, 0x03, 0x80, 0x00⟩ = .ok (.moveRegImm .r3 128) := by
  decide

theorem witness_IgnoredBitsAreNotRead :
    SlotBytes.clearIgnored ⟨0x10, 0xF3, 0x80, 0xFF⟩ = SlotBytes.clearIgnored ⟨0x10, 0x03, 0x80, 0x00⟩ := by decide

theorem witness_IllegalEncodingsFault :
    ((at_ 63 ⟨0x01, 0, 0, 0⟩).fault = 0 ∧ (at_ 63 ⟨0x01, 0, 0, 0⟩).ip.toNat < 64 ∧
      decode ((at_ 63 ⟨0x01, 0, 0, 0⟩).slot (at_ 63 ⟨0x01, 0, 0, 0⟩).ip.toNat) = .error .illegalOpcode) ∧
    ((at_ 63 ⟨0x22, 5, 0, 0⟩).fault = 0 ∧ (at_ 63 ⟨0x22, 5, 0, 0⟩).ip.toNat < 64 ∧
      decode ((at_ 63 ⟨0x22, 5, 0, 0⟩).slot (at_ 63 ⟨0x22, 5, 0, 0⟩).ip.toNat) = .error .illegalRegister) := by decide

theorem witness_NopOnlyAdvancesIp :
    (at_ 63 ⟨0, 1, 2, 3⟩).fault = 0 ∧ (at_ 63 ⟨0, 1, 2, 3⟩).ip = 63 ∧ ((at_ 63 ⟨0, 1, 2, 3⟩).slot 63).b0 = 0x00 := by decide

theorem witness_MoveRegImmLoadsImmediate :
    (0xF4 : Byte).toNat % 16 = (regCode .ip).toNat ∧ 5 ≤ (0x05 : Byte).toNat % 16 ∧ 5 ≤ (0x0F : Byte).toNat % 16 ∧
    Reg.r0 ≠ .ip := by decide

theorem witness_MoveRegRegCopiesRegister :
    ((0xF4 : Byte).toNat % 16 = (regCode .ip).toNat ∧ (0x13 : Byte).toNat % 16 = (regCode .r3).toNat) ∧
    (5 ≤ (0x05 : Byte).toNat % 16 ∨ 5 ≤ (0x00 : Byte).toNat % 16) ∧
    (5 ≤ (0x00 : Byte).toNat % 16 ∨ 5 ≤ (0x05 : Byte).toNat % 16) ∧
    (Reg.r2 ≠ .ip ∧ Reg.r2 ≠ .ip) ∧ (Reg.ip = .ip ∨ Reg.r0 = .ip) ∧ (Reg.r0 = .ip ∨ Reg.ip = .ip) := by decide

theorem witness_MoveMemImmStoresImmediate :
    (0 : Offset).toNat < 768 ∧ (767 : Offset).toNat < 768 ∧ 768 ≤ (768 : Offset).toNat ∧ 768 ≤ (65535 : Offset).toNat := by
  decide

theorem witness_MoveMemRegStoresRegister :
    (0xF4 : Byte).toNat % 16 = (regCode .ip).toNat ∧ 5 ≤ (0x05 : Byte).toNat % 16 ∧
    (Reg.r3 ≠ .ip ∧ (767 : Offset).toNat < 768) ∧ (Reg.r3 ≠ .ip ∧ 768 ≤ (768 : Offset).toNat) := by decide

theorem witness_MoveRegMemLoadsDataByte :
    (0xF4 : Byte).toNat % 16 = (regCode .ip).toNat ∧ 5 ≤ (0x05 : Byte).toNat % 16 ∧
    (Reg.r0 ≠ .ip ∧ (767 : Offset).toNat < 768) ∧ (Reg.r0 ≠ .ip ∧ 768 ≤ (768 : Offset).toNat) := by decide

theorem witness_HaltFreezesTheCore :
    (at_ 63 ⟨0xFF, 1, 2, 3⟩).fault = 0 ∧ (at_ 63 ⟨0xFF, 1, 2, 3⟩).ip.toNat < 64 ∧
    ((at_ 63 ⟨0xFF, 1, 2, 3⟩).slot (at_ 63 ⟨0xFF, 1, 2, 3⟩).ip.toNat).b0 = 0xFF ∧
    (at_ 1 ⟨0xFF, 1, 2, 3⟩).runState = .halted ∧
    (∃ t, load [.halt, .nop] (at_ 1 ⟨0xFF, 1, 2, 3⟩) = .next (t, .ok)) ∧
    [Instr.halt, .nop][(at_ 1 ⟨0xFF, 1, 2, 3⟩).ip.toNat]? = some .nop :=
  ⟨by decide, by decide, by decide, by decide, ⟨_, rfl⟩, by decide⟩

theorem witness_HaltedIsLeftOnlyByLoadOrReset :
    (at_ 0 ⟨0xFF, 0, 0, 0⟩).runState = .halted ∧
    (∃ t r, hostOp .step (at_ 0 ⟨0xFF, 0, 0, 0⟩) = .next (t, r)) ∧
    (∃ t r, hostOp (.load [.nop]) (at_ 0 ⟨0xFF, 0, 0, 0⟩) = .next (t, r) ∧ t.runState ≠ .halted) :=
  ⟨by decide, ⟨_, _, rfl⟩, ⟨_, _, rfl, by decide⟩⟩

theorem witness_IpOperandFaultsFirst :
    (∃ o, Instr.moveMemReg 65535 .ip = .moveMemReg o .ip) ∧
    (∃ t, exec (.moveMemImm 0 1) { State.reset with fault := 4 } = .next t ∧ t.fault = 4) :=
  ⟨⟨_, rfl⟩, ⟨_, rfl, by decide⟩⟩

theorem witness_StepRunsDecodedInstruction :
    (at_ 63 ⟨0x22, 1, 2, 0xFF⟩).fault = 0 ∧ (at_ 63 ⟨0x22, 1, 2, 0xFF⟩).ip.toNat < 64 ∧
    decode ((at_ 63 ⟨0x22, 1, 2, 0xFF⟩).slot 63) = .ok (.moveRegMem .r1 767) := by decide

theorem witness_StepReportsFirstFault :
    ({ State.reset with fault := 1 } : State).fault ≠ 0 ∧
    64 ≤ ({ State.reset with ip := 64 } : State).ip.toNat ∧
    decode ((at_ 0 ⟨0x01, 0, 0, 0⟩).slot 0) = .error .illegalOpcode ∧
    decode ((at_ 63 ⟨0x21, 0, 0, 5⟩).slot 63) = .error .illegalRegister ∧
    (decode ((at_ 63 ⟨0x21, 0xFF, 0xFF, 4⟩).slot 63) = .ok (.moveMemReg 65535 .ip) ∧
      Reg.ip ∈ (Instr.moveMemReg 65535 .ip).namedRegs) ∧
    (decode ((at_ 63 ⟨0x21, 3, 0, 3⟩).slot 63) = .ok (.moveMemReg 768 .r3) ∧
      Reg.ip ∉ (Instr.moveMemReg 768 .r3).namedRegs ∧ 768 ≤ (768 : Offset).toNat) ∧
    (decode ((at_ 63 ⟨0x21, 2, 0xFF, 3⟩).slot 63) = .ok (.moveMemReg 767 .r3) ∧
      Reg.ip ∉ (Instr.moveMemReg 767 .r3).namedRegs ∧ (767 : Offset).toNat < 768) := by decide

theorem witness_FaultsArePrecise :
    State.fault { State.reset with ip := 64 } = 0 ∧ stepResult { State.reset with ip := 64 } = some (.fault 1) ∧
    stepResult (at_ 0 ⟨0x20, 3, 0, 1⟩) = some (.fault 5) := by decide

theorem witness_StepResultIsExecutedOrFault : State.reset.fault.toNat ≤ 5 ∧ (5 : BitVec 3).toNat ≤ 5 := by decide

theorem witness_FaultedStepDoesNothing : ({ State.reset with fault := 7 } : State).fault ≠ 0 := by decide

theorem witness_FaultIsStickyUntilReset :
    ({ State.reset with fault := 4 } : State).fault ≠ 0 ∧
    (∃ t r, hostOp (.load [.halt]) { State.reset with fault := 4 } = .next (t, r)) ∧
    (∃ t r, hostOp .step { State.reset with fault := 4 } = .next (t, r)) ∧
    (∃ t r, hostOp .reset { State.reset with fault := 4 } = .next (t, r)) :=
  ⟨by decide, ⟨_, _, rfl⟩, ⟨_, _, rfl⟩, ⟨_, _, rfl⟩⟩

theorem witness_IpAdvancesByOneOrStays :
    (stepResult (at_ 63 ⟨0, 0, 0, 0⟩) = some (.executed .nop) ∧ Instr.nop ≠ .halt) ∧
    stepResult (at_ 63 ⟨0xFF, 0, 0, 0⟩) = some (.executed .halt) ∧
    stepResult { State.reset with ip := 64 } = some (.fault 1) := by decide

theorem witness_PlacedWordIsTheNextInstruction : decodeTableWord 32 0x2202FFFF = some (.moveRegMem .r2 65535) := by decide

theorem witness_ArbiterRoutesEveryAccess :
    63 < 64 ∧ 3 < 4 ∧ (767 : Offset).toNat < 768 ∧ 768 ≤ (768 : Offset).toNat := by decide

theorem witness_SegmentsAreDisjoint :
    (∃ t, step (at_ 0 ⟨0x20, 0, 0, 1⟩) = .next t) ∧ 255 < 256 ∧
    (∃ t r, load [.halt] (at_ 0 ⟨0, 0, 0, 0⟩) = .next (t, r)) ∧ 256 ≤ 256 :=
  ⟨⟨_, rfl⟩, by decide, ⟨_, _, rfl⟩, by decide⟩

/-- Two states that differ in text agree on every data byte, and two that differ in data on every text byte; the writes
are to the last data byte and the last slot. -/
theorem witness_AccessesStayInTheirSegment :
    (∀ a, 256 ≤ a → a < 1024 → Memory.read [(255, 1)] a = State.reset.mem.read a) ∧
    (∀ a, a < 256 → Memory.read [(256, 1)] a = State.reset.mem.read a) ∧
    ({ State.reset with mem := [(256, 1)] } : State).ip = State.reset.ip ∧
    (∃ t, dataWrite State.reset 767 1 = .ok t) ∧ (255 < 256 ∨ 1024 ≤ 255) ∧ (1024 < 256 ∨ 1024 ≤ 1024) ∧
    (∃ t, textWrite State.reset 63 ⟨0xFF, 0, 0, 1⟩ = .ok t) ∧ 256 ≤ 256 := by
  refine ⟨fun a ha _ => ?_, fun a ha => ?_, rfl, ⟨_, rfl⟩, by decide, by decide, ⟨_, rfl⟩, by decide⟩
  · simp [Memory.read, State.reset, show 255 ≠ a by omega]
  · simp [Memory.read, State.reset, show 256 ≠ a by omega]

theorem witness_OversizedProgramIsTurnedAway :
    64 < (List.replicate 65 Instr.nop).length ∧ (List.replicate 64 Instr.nop).length = 64 ∧
    (List.replicate 65 Instr.nop).length = 65 := by decide

theorem witness_LoadWritesProgramOnly :
    (List.replicate 64 Instr.halt).length ≤ 64 ∧ (List.replicate 64 Instr.halt)[63]? = some .halt ∧
    4 * (List.replicate 64 Instr.halt).length ≤ 256 := by decide

theorem witness_LoadedInstructionIsFetchedNext :
    ∃ t, load [.nop, .halt] { State.reset with ip := 1 } = .next (t, .ok) ∧ t.fault = 0 ∧
      [Instr.nop, .halt][t.ip.toNat]? = some .halt := ⟨_, rfl, by decide, by decide⟩

theorem witness_StepKeepsInv :
    ∃ t, (at_ 63 ⟨0x10, 1, 2, 0⟩).Inv ∧ step (at_ 63 ⟨0x10, 1, 2, 0⟩) = .next t :=
  ⟨_, ⟨by decide, by decide, by decide⟩, rfl⟩

/-- Reset memory holds the word of `Nop` in every slot. -/
theorem reset_textEncoded : State.reset.TextEncoded := fun _ _ => ⟨.nop, rfl⟩

theorem witness_HostOperationsKeepInvariants :
    ∃ t r, State.reset.Inv ∧ State.reset.TextEncoded ∧ hostOp (.load [.halt]) State.reset = .next (t, r) :=
  ⟨_, _, ⟨by decide, by decide, by decide⟩, reset_textEncoded, rfl⟩

theorem witness_IllegalWordsAreNeverFetched :
    ∃ s, hostRun [.load [.moveRegImm .ip 1], .step, .load [.halt]] State.reset = some s ∧ 63 < 64 := ⟨_, rfl, by decide⟩

theorem witness_ReachableIpIsZeroToSixtyFour :
    (∃ s, hostRun [.load [.moveMemImm 767 1], .step] State.reset = some s) ∧ 64 ≤ 64 ∧
    (({ State.reset with ip := 64 } : State).fault = 0 ∧ 64 ≤ ({ State.reset with ip := 64 } : State).ip.toNat) ∧
    ((at_ 63 ⟨0x10, 0, 1, 0⟩).ip = 63 ∧ stepResult (at_ 63 ⟨0x10, 0, 1, 0⟩) = some (.executed (.moveRegImm .r0 1)) ∧
      Instr.moveRegImm .r0 1 ≠ .halt) :=
  ⟨⟨_, rfl⟩, by decide, by decide, by decide⟩

theorem witness_EndedRunStaysEnded :
    (at_ 63 ⟨0xFF, 0, 0, 0⟩).endsRun = true ∧ State.endsRun { State.reset with ip := 64 } = true := by decide

theorem witness_ControlDoesNotDependOnData :
    ∃ s' u', ({ State.reset with r0 := 7, mem := [(256, 1)] } : State).ip = State.reset.ip ∧
      ({ State.reset with r0 := 7, mem := [(256, 1)] } : State).fault = State.reset.fault ∧
      (∀ a, a < 256 → Memory.read [(256, 1)] a = State.reset.mem.read a) ∧
      core.run 2 { State.reset with r0 := 7, mem := [(256, 1)] } = .next s' ∧ core.run 2 State.reset = .next u' := by
  refine ⟨_, _, rfl, rfl, fun a ha => ?_, rfl, rfl⟩
  simp [Memory.read, State.reset, show 256 ≠ a by omega]

end Sys2Proof.Tests
end

/-! PROOFS. The state family (10_state.md): the registers and their codes, the state after reset, and the invariants
that every step and every host operation keep. -/

namespace Sys2Proof.Machine

/-! ### The effect of an instruction -/

@[simp] theorem effect_fault (i : Instr) (s : State) : (effect i s).fault = s.fault := by cases i <;> simp [effect]

/-- An instruction whose operand check passes advances IP by one, unless it is `Halt` (R97). -/
theorem effect_ip {i : Instr} (s : State) (hn : i.namesNoIp = true) (hi : i ≠ .halt) :
    (effect i s).ip = s.ip + 1 := by
  rw [namesNoIp_iff] at hn
  cases i with
  | nop | moveMemImm | moveMemReg => rfl
  | moveRegImm d | moveRegReg d | moveRegMem d =>
    have hd : d ≠ .ip := by rintro rfl; simp [Instr.namedRegs] at hn
    simp [effect, setReg_ip_of_ne _ _ _ hd]
  | halt => exact absurd rfl hi

/-- From a slot index, IP moves to at most 64 (R25). -/
theorem effect_ip_le {i : Instr} {s : State} (hn : i.namesNoIp = true) (hs : s.ip.toNat < 64) :
    (effect i s).ip.toNat ≤ 64 := by
  by_cases hi : i = .halt
  · subst hi
    exact hs.le
  · rw [effect_ip s hn hi]
    bv_omega

/-- An instruction writes nothing to the buffer but, for the two stores, the data byte at its offset. -/
theorem effect_mem_cases (i : Instr) (s : State) :
    (effect i s).mem = s.mem ∨
    ∃ o v, i.offset? = some o ∧ (effect i s).mem = s.mem.write (256 + o.toNat) v := by
  cases i with
  | nop | moveRegImm | moveRegReg | moveRegMem | halt => left; simp [effect]
  | moveMemImm o v => exact .inr ⟨o, v, rfl, rfl⟩
  | moveMemReg o r => exact .inr ⟨o, s.getReg r, rfl, rfl⟩

theorem wf_effect {i : Instr} {s : State} (ho : i.offsetInData = true) (hm : Memory.wf s.mem = true) :
    Memory.wf (effect i s).mem = true := by
  obtain h | ⟨o, v, hio, h⟩ := effect_mem_cases i s
  · rwa [h]
  · have hlt : o.toNat < 768 := (offsetInData_iff i).mp ho o hio
    rw [h]
    exact wf_write v (by simp only [Config.memSize_eq]; omega) hm

theorem read_effect_of_text (i : Instr) (s : State) {a : Nat} (ha : a < 256) :
    (effect i s).mem.read a = s.mem.read a := by
  obtain h | ⟨o, v, -, h⟩ := effect_mem_cases i s
  · rw [h]
  · rw [h, read_write_of_ne _ _ (by omega)]

/-! ### The step -/

/-- No step changes a text byte (R49). -/
theorem read_step_of_text {s t : State} (h : step s = .next t) {a : Nat} (ha : a < 256) :
    t.mem.read a = s.mem.read a := by
  obtain ⟨-, rfl⟩ | ⟨-, c, rfl⟩ | ⟨-, i, -, -, -, rfl⟩ := step_cases h
  · rfl
  · rfl
  · exact read_effect_of_text i s ha

/-- No step changes a text slot. -/
theorem slot_step {s t : State} (h : step s = .next t) {j : Nat} (hj : j < 64) : t.slot j = s.slot j :=
  slot_congr (fun _ ha => read_step_of_text h ha) hj

theorem stepResult_of_faulted {s : State} (h : s.fault ≠ 0) : stepResult s = some (.fault s.fault) := if_pos h

theorem stepResult_of_raised {s : State} {c : Cause} (h : s.fault = 0) (hc : fetch s = .error (.raise c)) :
    stepResult s = some (.fault c.code) := by
  simp [stepResult, h, hc]

/-- The result of a step that fetched an instruction, in the order of the checks of `exec_eq` (R92, R98). -/
theorem stepResult_of_fetched {s : State} {i : Instr} (h : s.fault = 0) (hi : fetch s = .ok i) :
    stepResult s = some (if i.namesNoIp then if i.offsetInData then .executed i
      else .fault Cause.dataOutOfRange.code else .fault Cause.ipOperand.code) := by
  simp only [stepResult, h, hi, exec_eq]
  cases i.namesNoIp
  · rfl
  · cases i.offsetInData
    · rfl
    · simp [h]

/-- `Executed(i)` (R92): the slot at IP decodes to `i`, both its checks pass, and the step is its effect. -/
theorem step_of_executed {s : State} {i : Instr} (h : stepResult s = some (.executed i)) :
    s.fault = 0 ∧ fetch s = .ok i ∧ i.namesNoIp = true ∧ i.offsetInData = true ∧ step s = .next (effect i s) := by
  by_cases hf : s.fault = 0
  · cases hi : fetch s with
    | error e =>
      obtain ⟨c, rfl⟩ := fetch_error s hi
      simp [stepResult_of_raised hf hi] at h
    | ok k =>
      rw [stepResult_of_fetched hf hi, Option.some.injEq] at h
      split_ifs at h with hn ho
      obtain rfl : k = i := StepResult.executed.inj h
      exact ⟨hf, rfl, hn, ho, by rw [step_of_fetched hf hi, exec_eq, if_pos hn, if_pos ho]⟩
  · simp [stepResult_of_faulted hf] at h

/-- A step with FAULT clear and IP at no slot raises FetchOutOfRange (R94). -/
theorem step_of_ip_ge {s : State} (hf : s.fault = 0) (h : 64 ≤ s.ip.toNat) :
    step s = .next { s with fault := 1 } :=
  step_of_raised hf (fetch_of_ge s h)

/-! ### Reset -/

theorem hostReset_eq (s : State) : hostReset s = State.reset := rfl

theorem slot_reset (j : Nat) : State.reset.slot j = encode .nop := rfl

/-! ### The load -/

/-- A property that a write of one encoded slot keeps is kept by a load. -/
theorem loadFrom_keeps {P : State → Prop}
    (hwrite : ∀ s j i, j < 64 → P s → P { s with mem := slotWritten s.mem j (encode i) })
    {p : List Instr} {s t : State} {j : Nat} (hs : P s) (h : loadFrom s j p = .ok t) : P t := by
  induction p generalizing s j with
  | nil =>
    cases h
    exact hs
  | cons i p ih =>
    unfold loadFrom at h
    cases hw : textWrite s j (encode i) with
    | error f => simp [hw, bind, Except.bind] at h
    | ok u =>
      obtain ⟨hj, rfl, -⟩ := textWrite_ok s hw
      exact ih (hwrite s j i hj hs) (by simpa [hw, bind, Except.bind] using h)

/-- A load that answers has turned the program away, or has written it from slot 0 on (R213, R214). -/
theorem load_cases {p : List Instr} {s t : State} {r : LoadResult} (h : load p s = .next (t, r)) :
    (64 < p.length ∧ t = s ∧ r = .size (4 * p.length)) ∨
    (p.length ≤ 64 ∧ loadFrom s 0 p = .ok t ∧ r = .ok) := by
  unfold load at h
  split at h
  next hp =>
    rw [programFits_iff] at hp
    cases hl : loadFrom s 0 p with
    | error f => simp [hl] at h
    | ok u =>
      simp only [hl, Host.Outcome.next.injEq, Prod.mk.injEq] at h
      obtain ⟨rfl, rfl⟩ := h
      exact .inr ⟨hp, rfl, rfl⟩
  next hp =>
    rw [programFits_iff] at hp
    cases h
    exact .inl ⟨by omega, rfl, rfl⟩

/-! ### Host operations -/

/-- Every way a host operation reaches its next state (R90). -/
theorem hostOp_cases {op : HostOp} {s t : State} {r : HostResult} (h : hostOp op s = .next (t, r)) :
    (op = .construct ∧ t = State.reset) ∨
    (∃ p r', op = .load p ∧ load p s = .next (t, r')) ∨
    (op = .step ∧ step s = .next t) ∨
    (op = .reset ∧ t = State.reset) ∨
    (op = .observe ∧ t = s) := by
  cases op with
  | construct =>
    cases h
    exact .inl ⟨rfl, rfl⟩
  | load p =>
    simp only [hostOp] at h
    split at h <;> cases h
    exact .inr (.inl ⟨p, _, rfl, ‹_›⟩)
  | step =>
    simp only [hostOp] at h
    split at h <;> cases h <;> exact .inr (.inr (.inl ⟨rfl, ‹_›⟩))
  | reset =>
    cases h
    exact .inr (.inr (.inr (.inl ⟨rfl, hostReset_eq s⟩)))
  | observe =>
    cases h
    exact .inr (.inr (.inr (.inr ⟨rfl, rfl⟩)))

/-- A property of the reset state that a step and a write of one encoded slot keep is kept by every host operation. -/
theorem hostOp_keeps {P : State → Prop} (hreset : P State.reset)
    (hstep : ∀ s t, P s → step s = .next t → P t)
    (hwrite : ∀ s j i, j < 64 → P s → P { s with mem := slotWritten s.mem j (encode i) })
    {op : HostOp} {s t : State} {r : HostResult} (hs : P s) (h : hostOp op s = .next (t, r)) : P t := by
  obtain ⟨-, rfl⟩ | ⟨p, r', -, hl⟩ | ⟨-, ht⟩ | ⟨-, rfl⟩ | ⟨-, rfl⟩ := hostOp_cases h
  · exact hreset
  · obtain ⟨-, rfl, -⟩ | ⟨-, hl, -⟩ := load_cases hl
    · exact hs
    · exact loadFrom_keeps hwrite hs hl
  · exact hstep s t hs ht
  · exact hreset
  · exact hs

/-- A property that every host operation keeps is kept by every run of them. -/
theorem hostRun_keeps {P : State → Prop} (hop : ∀ op s t r, P s → hostOp op s = .next (t, r) → P t)
    {ops : List HostOp} {s t : State} (hs : P s) (h : hostRun ops s = some t) : P t := by
  induction ops generalizing s with
  | nil =>
    cases h
    exact hs
  | cons op ops ih =>
    unfold hostRun at h
    split at h
    next u r hu => exact ih (hop op s u r hs hu) h
    next => cases h
    next => cases h

/-- In a run of host operations, a step that answers is the state the rest of the run starts from. -/
theorem hostRun_step_cons {s t : State} (h : step s = .next t) (ops : List HostOp) :
    hostRun (.step :: ops) s = hostRun ops t := by
  cases hr : stepResult s <;> simp [hostRun, hostOp, h, hr]

/-! ### The invariants -/

theorem inv_reset : State.reset.Inv := ⟨rfl, by decide, by decide⟩

theorem textEncoded_reset : State.reset.TextEncoded := fun j _ => ⟨.nop, slot_reset j⟩

theorem inv_step {s t : State} (hs : s.Inv) (h : step s = .next t) : t.Inv := by
  obtain ⟨hm, hip, hf⟩ := hs
  obtain ⟨-, rfl⟩ | ⟨-, c, rfl⟩ | ⟨-, i, hi, hn, ho, rfl⟩ := step_cases h
  · exact ⟨hm, hip, hf⟩
  · exact ⟨hm, hip, code_le_five c⟩
  · have hlt : s.ip.toNat < 64 := (fetch_ok s hi).1
    exact ⟨wf_effect ho hm, effect_ip_le hn hlt, by rwa [effect_fault]⟩

theorem textEncoded_step {s t : State} (hs : s.TextEncoded) (h : step s = .next t) : t.TextEncoded := fun j hj => by
  rw [slot_step h hj]
  exact hs j hj

theorem inv_slotWritten {s : State} {j : Nat} (b : SlotBytes) (hj : j < 64) (hs : s.Inv) :
    State.Inv { s with mem := slotWritten s.mem j b } :=
  ⟨wf_slotWritten b hj hs.1, hs.2⟩

theorem textEncoded_slotWritten {s : State} (j : Nat) (i : Instr) (hs : s.TextEncoded) :
    State.TextEncoded { s with mem := slotWritten s.mem j (encode i) } := fun k hk => by
  rw [slot_slotWritten]
  split
  · exact ⟨i, rfl⟩
  · exact hs k hk

theorem inv_hostOp {op : HostOp} {s t : State} {r : HostResult} (hs : s.Inv) (h : hostOp op s = .next (t, r)) :
    t.Inv :=
  hostOp_keeps inv_reset (fun _ _ => inv_step) (fun _ _ i hj => inv_slotWritten (encode i) hj) hs h

theorem textEncoded_hostOp {op : HostOp} {s t : State} {r : HostResult} (hs : s.TextEncoded)
    (h : hostOp op s = .next (t, r)) : t.TextEncoded :=
  hostOp_keeps textEncoded_reset (fun _ _ => textEncoded_step) (fun _ j i _ => textEncoded_slotWritten j i) hs h

/-! ### Reaching every value of IP from reset -/

/-- In the reset buffer every step at a slot executes a `Nop`. -/
theorem step_reset_with_ip {a : Byte} (ha : a.toNat < 64) :
    step { State.reset with ip := a } = .next { State.reset with ip := a + 1 } := by
  have hfetch : fetch { State.reset with ip := a } = .ok .nop := fetch_of_lt { State.reset with ip := a } ha
  exact step_of_fetched rfl hfetch

theorem hostRun_steps_reset_with_ip (n : Nat) {a : Byte} (ha : a.toNat + n ≤ 64) :
    ∃ b : Byte, hostRun (List.replicate n .step) { State.reset with ip := a } = some { State.reset with ip := b } ∧
      b.toNat = a.toNat + n := by
  induction n generalizing a with
  | zero => exact ⟨a, rfl, rfl⟩
  | succ n ih =>
    have hnext : (a + 1).toNat = a.toNat + 1 := by bv_omega
    obtain ⟨b, hrun, hb⟩ := ih (a := a + 1) (by omega)
    refine ⟨b, ?_, by omega⟩
    rw [List.replicate_succ, hostRun_step_cons (step_reset_with_ip (by omega)), hrun]

/-! ### The obligations of the family -/

/-- Settles O35: by the three ways a step reaches its next state; only an executed instruction moves IP or writes. -/
theorem stepKeepsInv : Obligations.StepKeepsInv := fun _ _ => inv_step

/-- Settles O38: by the rule `hostOp_keeps`, once for each of the two invariants. -/
theorem hostOperationsKeepInvariants : Obligations.HostOperationsKeepInvariants :=
  fun _ _ _ _ hinv htext h => ⟨inv_hostOp hinv h, textEncoded_hostOp htext h⟩

/-- Settles O40: the bound is the invariant along the run; the value `n` is reached by `n` steps from reset. -/
theorem reachableIpIsZeroToSixtyFour : Obligations.ReachableIpIsZeroToSixtyFour := by
  refine ⟨fun ops s hrun => ?_, fun n hn => ?_, fun s => step_of_ip_ge, fun s i hip hres hi => ?_⟩
  · obtain ⟨-, hip, -⟩ : s.Inv := hostRun_keeps (fun _ _ _ _ => inv_hostOp) inv_reset hrun
    exact hip
  · obtain ⟨b, hrun, hb⟩ := hostRun_steps_reset_with_ip n (a := 0) (by simpa using hn)
    exact ⟨_, _, hrun, by simpa using hb⟩
  · obtain ⟨-, -, hn, -, hstep⟩ := step_of_executed hres
    refine ⟨effect i s, hstep, ?_⟩
    rw [effect_ip s hn hi, hip]
    rfl

/-- Settles O1: from the laws of `regOf` and `regCode`. -/
theorem registerCodesNameRegisters : Obligations.RegisterCodesNameRegisters :=
  ⟨rfl, rfl, rfl, rfl, rfl, fun c => (regOf_eq_none_iff c).mpr, regOf_regCode⟩

/-- Settles O2: from the laws of `setReg`. -/
theorem registerWriteThenRead : Obligations.RegisterWriteThenRead := fun s r v =>
  ⟨getReg_setReg_self s r v, fun _ => getReg_setReg_of_ne s r v, setReg_mem s r v, setReg_fault s r v⟩

/-- Settles O3: a reset answers the reset state (`hostReset_eq`), whose every slot holds the word of `Nop`. -/
theorem resetZeroesEverything : Obligations.ResetZeroesEverything := by
  refine ⟨hostReset_eq, fun _ => rfl, fun _ => rfl, fun r => ?_, rfl, read_cleared, fun j _ => ?_⟩
  · cases r <;> rfl
  · rw [slot_reset]
    rfl

/-- Settles O36: the buffer is empty, and an empty slot is the word of `Nop`. -/
theorem resetMeetsInvariants : Obligations.ResetMeetsInvariants := ⟨inv_reset, textEncoded_reset⟩

end Sys2Proof.Machine

/-! PROOFS. The memory family (20_memory.md): the two views of the buffer and what their accesses depend on and change,
the load slot by slot, and that no host operation breaches an access contract. -/

namespace Sys2Proof

/-- The decoder reads back what the encoder writes (R70). -/
theorem decode_encode (i : Instr) : decode (encode i) = .ok i := by
  cases i with
  | nop | halt => rfl
  | moveRegImm | moveRegReg => simp [decode, encode, bind, Except.bind]
  | moveMemImm => simp [decode, encode, offsetOf_split]
  | moveMemReg | moveRegMem => simp [decode, encode, offsetOf_split, bind, Except.bind]

end Sys2Proof

namespace Sys2Proof.Machine

/-! ### The addresses of the two views -/

theorem textAddr_lt {i k : Nat} (hi : i < 64) (hk : k < 4) : textAddr i k < 256 := by
  simp only [textAddr, Config.slotSize_eq]
  omega

theorem dataAddr_mem_segment {o : Offset} (ho : o.toNat < 768) : 256 ≤ dataAddr o ∧ dataAddr o < 1024 := by
  simp only [dataAddr, Config.textSize_eq]
  omega

/-! ### What a read depends on (R49) -/

/-- A slot read depends on the text bytes alone. -/
theorem textRead_congr {s u : State} (h : ∀ a, a < 256 → s.mem.read a = u.mem.read a) (i : Nat) :
    textRead s i = textRead u i := by
  rcases Nat.lt_or_ge i 64 with hi | hi
  · rw [textRead_of_lt s hi, textRead_of_lt u hi, slot_congr h hi]
  · rw [textRead_of_ge s hi, textRead_of_ge u hi]

/-- A fetch depends on IP and the text bytes alone. -/
theorem fetch_congr {s u : State} (hip : s.ip = u.ip) (h : ∀ a, a < 256 → s.mem.read a = u.mem.read a) :
    fetch s = fetch u := by
  rcases Nat.lt_or_ge u.ip.toNat 64 with hu | hu
  · rw [fetch_of_lt s (hip ▸ hu), fetch_of_lt u hu, hip, slot_congr h hu]
  · rw [fetch_of_ge s (hip ▸ hu), fetch_of_ge u hu]

/-- A data read depends on the data bytes alone. -/
theorem dataRead_congr {s u : State} (h : ∀ a, 256 ≤ a → a < 1024 → s.mem.read a = u.mem.read a) (o : Offset) :
    dataRead s o = dataRead u o := by
  rcases Nat.lt_or_ge o.toNat 768 with ho | ho
  · have hbyte : s.dataByte o.toNat = u.dataByte o.toNat := h _ (by omega) (by omega)
    rw [dataRead_of_lt s ho, dataRead_of_lt u ho, hbyte]
  · rw [dataRead_of_ge s ho, dataRead_of_ge u ho]

/-! ### What a write leaves unchanged (R45, R47, R49) -/

/-- A slot write leaves every byte from 256 on. -/
theorem read_slotWritten_of_data (m : Memory) {i a : Nat} (b : SlotBytes) (hi : i < 64) (ha : 256 ≤ a) :
    Memory.read (slotWritten m i b) a = Memory.read m a :=
  read_slotWritten_of_outside m b (by omega)

theorem read_textWrite_of_data {s t : State} {i : Nat} {b : SlotBytes} (h : textWrite s i b = .ok t) {a : Nat}
    (ha : 256 ≤ a) : t.mem.read a = s.mem.read a := by
  obtain ⟨hi, rfl, -⟩ := textWrite_ok s h
  exact read_slotWritten_of_data s.mem b hi ha

/-- A data write leaves every byte outside the data segment. -/
theorem read_dataWrite_of_outside {s t : State} {o : Offset} {v : Byte} (h : dataWrite s o v = .ok t) {a : Nat}
    (ha : a < 256 ∨ 1024 ≤ a) : t.mem.read a = s.mem.read a := by
  obtain ⟨ho, rfl, -⟩ := dataWrite_ok s h
  exact read_write_of_ne s.mem v (by omega)

theorem keepsBytesBut_slotWritten (s : State) (i : Nat) (b : SlotBytes) :
    keepsBytesBut [4 * i, 4 * i + 1, 4 * i + 2, 4 * i + 3] s { s with mem := slotWritten s.mem i b } := fun a ha => by
  simp only [List.mem_cons, List.not_mem_nil, or_false, not_or] at ha
  exact read_slotWritten_of_outside s.mem b (by omega)

theorem keepsBytesBut_write (s : State) (a : Nat) (v : Byte) :
    keepsBytesBut [a] s { s with mem := s.mem.write a v } :=
  fun _ hb => read_write_of_ne s.mem v (List.ne_of_not_mem_cons hb)

/-! ### The load, slot by slot (R214) -/

theorem loadFrom_cons (s : State) (j : Nat) (i : Instr) (p : List Instr) :
    loadFrom s j (i :: p) =
      if j < 64 then loadFrom { s with mem := slotWritten s.mem j (encode i) } (j + 1) p
      else .error (.outsideText j) := by
  rw [loadFrom]
  split_ifs with hj
  · rw [textWrite_of_lt s _ hj]
    rfl
  · rw [textWrite_of_ge s _ (by omega)]
    rfl

/-- A load that answers wrote its first instruction into a slot, and the rest from the next slot on. -/
theorem loadFrom_cons_ok {s t : State} {j : Nat} {i : Instr} {p : List Instr} (h : loadFrom s j (i :: p) = .ok t) :
    j < 64 ∧ loadFrom { s with mem := slotWritten s.mem j (encode i) } (j + 1) p = .ok t := by
  rw [loadFrom_cons] at h
  split_ifs at h with hj
  exact ⟨hj, h⟩

theorem loadFrom_completes (p : List Instr) (s : State) {j : Nat} (h : j + p.length ≤ 64) :
    ∃ t, loadFrom s j p = .ok t := by
  induction p generalizing s j with
  | nil => exact ⟨s, rfl⟩
  | cons i p ih =>
    rw [List.length_cons] at h
    rw [loadFrom_cons, if_pos (by omega)]
    exact ih _ (by omega)

/-- The slots below the first one loaded stay as they were. -/
theorem slot_loadFrom_of_lt {p : List Instr} {s t : State} {j k : Nat} (h : loadFrom s j p = .ok t) (hk : k < j) :
    t.slot k = s.slot k := by
  induction p generalizing s j with
  | nil =>
    cases h
    rfl
  | cons i p ih =>
    rw [ih (loadFrom_cons_ok h).2 (by omega), slot_slotWritten, if_neg (by omega)]

/-- Each loaded slot holds the encoding of its instruction. -/
theorem slot_loadFrom {p : List Instr} {s t : State} {j k : Nat} {i : Instr} (h : loadFrom s j p = .ok t)
    (hk : p[k]? = some i) : t.slot (j + k) = encode i := by
  induction p generalizing s j k with
  | nil => simp at hk
  | cons i₀ p ih =>
    obtain ⟨-, hrest⟩ := loadFrom_cons_ok h
    cases k with
    | zero =>
      obtain rfl : i₀ = i := by simpa using hk
      rw [Nat.add_zero, slot_loadFrom_of_lt hrest (by omega), slot_slotWritten, if_pos rfl]
    | succ k =>
      rw [← Nat.add_assoc, Nat.add_right_comm]
      exact ih hrest (by simpa using hk)

theorem read_loadFrom_of_data {p : List Instr} {s t : State} {j : Nat} (h : loadFrom s j p = .ok t) {a : Nat}
    (ha : 256 ≤ a) : t.mem.read a = s.mem.read a :=
  loadFrom_keeps (P := fun u => u.mem.read a = s.mem.read a)
    (fun u _ i hj hu => (read_slotWritten_of_data u.mem (encode i) hj ha).trans hu) rfl h

/-- No load changes a byte from 256 on (R214). -/
theorem read_load_of_data {p : List Instr} {s t : State} {r : LoadResult} (h : load p s = .next (t, r)) {a : Nat}
    (ha : 256 ≤ a) : t.mem.read a = s.mem.read a := by
  obtain ⟨-, rfl, -⟩ | ⟨-, hl, -⟩ := load_cases h
  · rfl
  · exact read_loadFrom_of_data hl ha

/-- A load that answers `Ok` had a program of at most 64 instructions, and each of its slots now holds its encoding. -/
theorem slot_load_of_ok {p : List Instr} {s t : State} (h : load p s = .next (t, .ok)) :
    p.length ≤ 64 ∧ ∀ k i, p[k]? = some i → t.slot k = encode i := by
  obtain ⟨-, -, hr⟩ | ⟨hlen, hl, -⟩ := load_cases h
  · cases hr
  · exact ⟨hlen, fun k i hk => by simpa using slot_loadFrom hl hk⟩

/-! ### Every operation answers -/

/-- A step answers a next state and a result from every state (R92, R93). -/
theorem step_completes (s : State) : ∃ t r, step s = .next t ∧ stepResult s = some r := by
  by_cases hf : s.fault = 0
  · cases hi : fetch s with
    | error e =>
      obtain ⟨c, rfl⟩ := fetch_error s hi
      exact ⟨_, _, step_of_raised hf hi, stepResult_of_raised hf hi⟩
    | ok i => exact ⟨_, _, (step_of_fetched hf hi).trans (exec_eq i s), stepResult_of_fetched hf hi⟩
  · exact ⟨s, _, step_of_faulted hf, stepResult_of_faulted hf⟩

/-- A load answers a next state from every state: a program that passes the size check stays within the slots. -/
theorem load_completes (p : List Instr) (s : State) : ∃ t r, load p s = .next (t, r) := by
  unfold load
  split_ifs with hp
  · obtain ⟨t, ht⟩ := loadFrom_completes p s (j := 0) (by simpa using (programFits_iff p).mp hp)
    exact ⟨t, .ok, by rw [ht]⟩
  · exact ⟨s, _, rfl⟩

/-! ### The obligations of the family -/

/-- Settles O29: from what each of the four accesses answers on either side of its bound. -/
theorem arbiterRoutesEveryAccess : Obligations.ArbiterRoutesEveryAccess := by
  refine ⟨fun s _ => textRead_of_lt s, fun s i b hi => ?_, fun s _ => dataRead_of_lt s, fun s _ => dataRead_of_ge s,
    fun s o v ho => ?_, fun s _ v => dataWrite_of_ge s v, fun _ => read_cleared, fun _ _ => textAddr_lt,
    fun _ => dataAddr_mem_segment⟩
  · exact ⟨_, textWrite_of_lt s b hi, by rw [slot_slotWritten, if_pos rfl], keepsBytesBut_slotWritten s i b,
      fun r => getReg_with_mem s r _, rfl⟩
  · exact ⟨_, dataWrite_of_lt s v ho, read_write_self s.mem _ v, keepsBytesBut_write s _ v,
      fun r => getReg_with_mem s r _, rfl⟩

/-- Settles O30: a step writes only data bytes, a load only text bytes. -/
theorem segmentsAreDisjoint : Obligations.SegmentsAreDisjoint :=
  ⟨fun _ _ h _ => read_step_of_text h, fun _ _ _ _ h _ => read_load_of_data h⟩

/-- Settles O33: the slot at IP holds the encoding of the loaded instruction, which decodes back to it. -/
theorem loadedInstructionIsFetchedNext : Obligations.LoadedInstructionIsFetchedNext := by
  intro p s t i hload hf hi
  obtain ⟨hlen, hslot⟩ := slot_load_of_ok hload
  have hip : t.ip.toNat < p.length := (List.getElem?_eq_some_iff.mp hi).1
  have hfetch : fetch t = .ok i := by
    rw [fetch_of_lt t (by omega), hslot _ _ hi, decode_encode]
  exact step_of_fetched hf hfetch

/-- Settles O37: a step and a load always answer, and the three other operations answer by definition. -/
theorem everyHostOperationCompletes : Obligations.EveryHostOperationCompletes := by
  intro op s
  cases op with
  | construct | reset | observe => exact ⟨_, _, rfl⟩
  | load p =>
    obtain ⟨t, r, h⟩ := load_completes p s
    exact ⟨t, .loaded r, by simp [hostOp, h]⟩
  | step =>
    obtain ⟨t, r, h, hr⟩ := step_completes s
    exact ⟨t, .stepped r, by simp [hostOp, h, hr]⟩

/-- Settles O44: a read in one view depends on its own segment alone, which a write in the other view leaves. -/
theorem accessesStayInTheirSegment : Obligations.AccessesStayInTheirSegment := by
  refine ⟨fun _ _ o h => dataRead_congr h o, fun _ _ i h => textRead_congr h i, fun _ _ => fetch_congr,
    fun s t o v h => ?_, fun s t i b h => ?_⟩
  · exact ⟨fun _ => read_dataWrite_of_outside h, textRead_congr fun _ ha => read_dataWrite_of_outside h (.inl ha)⟩
  · exact ⟨fun _ => read_textWrite_of_data h, dataRead_congr fun _ ha _ => read_textWrite_of_data h ha⟩

end Sys2Proof.Machine

/-! PROOFS. The encoding family (30_encoding.md): what a register field and each tag decode to, the ignored bits, the
illegal words and the fault a step raises on them, and that no host operation brings one into the text segment. -/

namespace Sys2Proof

/-! ### The register field of a byte (R64) -/

theorem regByte_eq_ofNat (r : Reg) : regByte r = BitVec.ofNat 8 (regCode r).toNat := (BitVec.ofNat_toNat 8 _).symm

theorem regCode_toNat_lt_five (r : Reg) : (regCode r).toNat < 5 := by cases r <;> decide

theorem regOf_eq_some_iff {c : BitVec 4} {r : Reg} : regOf c = some r ↔ c = regCode r :=
  ⟨fun h => (regCode_of_regOf h).symm, fun h => h ▸ regOf_regCode r⟩

theorem lowNibble_toNat (b : Byte) : (b.extractLsb' 0 4).toNat = b.toNat % 16 := by simp

theorem setWidth_lowNibble (b : Byte) : (b.extractLsb' 0 4).setWidth 8 = b &&& 0x0F#8 := by
  revert b
  decide

/-- A register field names the register whose code its low nibble is. -/
theorem regField_eq_ok_iff {b : Byte} {r : Reg} : regField b = .ok r ↔ b.toNat % 16 = (regCode r).toNat := by
  have hfield : regField b = .ok r ↔ regOf (b.extractLsb' 0 4) = some r := by
    unfold regField
    cases regOf (b.extractLsb' 0 4) <;> simp
  rw [hfield, regOf_eq_some_iff, ← BitVec.toNat_inj, lowNibble_toNat]

/-- A register field is rejected for one reason only, a low nibble of 5 to 15. -/
theorem regField_eq_error_iff {b : Byte} {e : Invalid} :
    regField b = .error e ↔ e = .illegalRegister ∧ 5 ≤ b.toNat % 16 := by
  rw [← lowNibble_toNat, ← regOf_eq_none_iff]
  unfold regField
  cases regOf (b.extractLsb' 0 4) <;> simp [eq_comm]

/-- The byte of the register a field names is that field with its high nibble cleared. -/
theorem regByte_of_regField {b : Byte} {r : Reg} (h : regField b = .ok r) : regByte r = b &&& 0x0F#8 := by
  rw [regField_eq_ok_iff, ← lowNibble_toNat, BitVec.toNat_inj] at h
  rw [regByte, ← h, setWidth_lowNibble]

@[simp] theorem regField_lowNibble (b : Byte) : regField (b &&& 0x0F#8) = regField b := by
  have hlow : (b &&& 0x0F#8).extractLsb' 0 4 = b.extractLsb' 0 4 := by
    revert b
    decide
  rw [regField, hlow, regField]

/-! ### The bytes of an offset (R66) -/

theorem offsetHi_eq_ofNat (o : Offset) : offsetHi o = BitVec.ofNat 8 (o.toNat / 256) := by
  rw [← offsetHi_toNat, BitVec.ofNat_toNat, BitVec.setWidth_eq]

theorem offsetLo_eq_ofNat (o : Offset) : offsetLo o = BitVec.ofNat 8 (o.toNat % 256) := by
  rw [← offsetLo_toNat, BitVec.ofNat_toNat, BitVec.setWidth_eq]

/-! ### The decoder by tag (R62, R68) -/

/-- The seven opcode tags of R62. -/
def opcodeTags : List Byte := [0x00, 0x10, 0x11, 0x20, 0x21, 0x22, 0xFF]

/-- Four bytes carry one of the seven tags, or none of them. -/
theorem SlotBytes.tagCases {P : SlotBytes → Prop}
    (nop : ∀ b1 b2 b3, P ⟨0x00#8, b1, b2, b3⟩) (moveRegImm : ∀ b1 b2 b3, P ⟨0x10#8, b1, b2, b3⟩)
    (moveRegReg : ∀ b1 b2 b3, P ⟨0x11#8, b1, b2, b3⟩) (moveMemImm : ∀ b1 b2 b3, P ⟨0x20#8, b1, b2, b3⟩)
    (moveMemReg : ∀ b1 b2 b3, P ⟨0x21#8, b1, b2, b3⟩) (moveRegMem : ∀ b1 b2 b3, P ⟨0x22#8, b1, b2, b3⟩)
    (halt : ∀ b1 b2 b3, P ⟨0xFF#8, b1, b2, b3⟩) (untagged : ∀ b, b.b0 ∉ opcodeTags → P b) (b : SlotBytes) : P b := by
  obtain ⟨b0, b1, b2, b3⟩ := b
  by_cases h : b0 ∈ opcodeTags
  · simp only [opcodeTags, List.mem_cons, List.not_mem_nil, or_false] at h
    obtain rfl | rfl | rfl | rfl | rfl | rfl | rfl := h
    exacts [nop .., moveRegImm .., moveRegReg .., moveMemImm .., moveMemReg .., moveRegMem .., halt ..]
  · exact untagged _ h

section
variable (b1 b2 b3 : Byte)

@[simp] theorem decode_nop : decode ⟨0x00#8, b1, b2, b3⟩ = .ok .nop := rfl

@[simp] theorem decode_moveRegImm :
    decode ⟨0x10#8, b1, b2, b3⟩ = (regField b1).map (Instr.moveRegImm · b2) := rfl

@[simp] theorem decode_moveRegReg :
    decode ⟨0x11#8, b1, b2, b3⟩ = (regField b1).bind fun d => (regField b2).map (Instr.moveRegReg d) := rfl

@[simp] theorem decode_moveMemImm : decode ⟨0x20#8, b1, b2, b3⟩ = .ok (.moveMemImm (offsetOf b1 b2) b3) := rfl

@[simp] theorem decode_moveMemReg :
    decode ⟨0x21#8, b1, b2, b3⟩ = (regField b3).map (Instr.moveMemReg (offsetOf b1 b2)) := rfl

@[simp] theorem decode_moveRegMem :
    decode ⟨0x22#8, b1, b2, b3⟩ = (regField b1).map (Instr.moveRegMem · (offsetOf b2 b3)) := rfl

@[simp] theorem decode_halt : decode ⟨0xFF#8, b1, b2, b3⟩ = .ok .halt := rfl

end

theorem decode_untagged {b : SlotBytes} (h : b.b0 ∉ opcodeTags) : decode b = .error .illegalOpcode := by
  simp only [opcodeTags, List.mem_cons, List.not_mem_nil, or_false, not_or] at h
  simp only [decode, h, if_false]

theorem clearIgnored_untagged {b : SlotBytes} (h : b.b0 ∉ opcodeTags) : b.clearIgnored = b := by
  simp only [opcodeTags, List.mem_cons, List.not_mem_nil, or_false, not_or] at h
  simp only [SlotBytes.clearIgnored, h, if_false]

/-! ### Answers through `map` and `bind` -/

section
variable {ε α β : Type} {x : Except ε α}

theorem except_map_eq_ok_iff {f : α → β} {y : β} : x.map f = .ok y ↔ ∃ a, x = .ok a ∧ f a = y := by
  cases x <;> simp [Except.map]

theorem except_map_eq_error_iff {f : α → β} {e : ε} : x.map f = .error e ↔ x = .error e := by
  cases x <;> simp [Except.map]

theorem except_bind_eq_ok_iff {f : α → Except ε β} {y : β} : x.bind f = .ok y ↔ ∃ a, x = .ok a ∧ f a = .ok y := by
  cases x <;> simp [Except.bind]

theorem except_bind_eq_error_iff {f : α → Except ε β} {e : ε} :
    x.bind f = .error e ↔ x = .error e ∨ ∃ a, x = .ok a ∧ f a = .error e := by
  cases x <;> simp [Except.bind]

end

/-! ### The ignored bits (R67) -/

/-- The decoder reads no ignored bit. -/
theorem decode_clearIgnored (b : SlotBytes) : decode b.clearIgnored = decode b := by
  cases b using SlotBytes.tagCases with
  | nop | moveMemImm | halt => rfl
  | moveRegImm | moveRegReg | moveMemReg | moveRegMem => simp [SlotBytes.clearIgnored]
  | untagged b h => rw [clearIgnored_untagged h]

/-- The encoder writes 0 in every ignored bit. -/
theorem clearIgnored_encode (i : Instr) : (encode i).clearIgnored = encode i := by
  cases i with
  | nop | moveMemImm | halt => rfl
  | moveRegImm d v => exact (Laws.EncodesCanonically.moveRegImm d v).2
  | moveRegReg d r => exact (Laws.EncodesCanonically.moveRegReg d r).2
  | moveMemReg o r => exact (Laws.EncodesCanonically.moveMemReg o r).2
  | moveRegMem d o => exact (Laws.EncodesCanonically.moveRegMem d o).2

/-- Encoding what a word decodes to gives the word with its ignored bits cleared. -/
theorem encode_of_decode {b : SlotBytes} {i : Instr} (h : decode b = .ok i) : encode i = b.clearIgnored := by
  cases b using SlotBytes.tagCases with
  | nop | halt =>
    cases h
    rfl
  | moveMemImm b1 b2 b3 =>
    cases h
    simp [encode, SlotBytes.clearIgnored, offsetHi_offsetOf, offsetLo_offsetOf]
  | moveRegImm b1 b2 b3 =>
    rw [decode_moveRegImm, except_map_eq_ok_iff] at h
    obtain ⟨d, hd, rfl⟩ := h
    simp [encode, SlotBytes.clearIgnored, regByte_of_regField hd]
  | moveRegReg b1 b2 b3 =>
    rw [decode_moveRegReg, except_bind_eq_ok_iff] at h
    obtain ⟨d, hd, h⟩ := h
    obtain ⟨r, hr, rfl⟩ := except_map_eq_ok_iff.mp h
    simp [encode, SlotBytes.clearIgnored, regByte_of_regField hd, regByte_of_regField hr]
  | moveMemReg b1 b2 b3 =>
    rw [decode_moveMemReg, except_map_eq_ok_iff] at h
    obtain ⟨r, hr, rfl⟩ := h
    simp [encode, SlotBytes.clearIgnored, regByte_of_regField hr, offsetHi_offsetOf, offsetLo_offsetOf]
  | moveRegMem b1 b2 b3 =>
    rw [decode_moveRegMem, except_map_eq_ok_iff] at h
    obtain ⟨d, hd, rfl⟩ := h
    simp [encode, SlotBytes.clearIgnored, regByte_of_regField hd, offsetHi_offsetOf, offsetLo_offsetOf]
  | untagged b hb =>
    rw [decode_untagged hb] at h
    cases h

/-! ### The illegal words (R71) -/

/-- A tag with a register field, and 5 to 15 in such a field. -/
def SlotBytes.HasIllegalField (b : SlotBytes) : Prop :=
  (b.b0 = 0x10 ∧ 5 ≤ b.b1.toNat % 16) ∨
  (b.b0 = 0x11 ∧ (5 ≤ b.b1.toNat % 16 ∨ 5 ≤ b.b2.toNat % 16)) ∨
  (b.b0 = 0x21 ∧ 5 ≤ b.b3.toNat % 16) ∨
  (b.b0 = 0x22 ∧ 5 ≤ b.b1.toNat % 16)

/-- A word with an illegal register field carries one of the seven tags. -/
theorem SlotBytes.HasIllegalField.tag_mem {b : SlotBytes} (h : b.HasIllegalField) : b.b0 ∈ opcodeTags := by
  obtain ⟨htag, -⟩ | ⟨htag, -⟩ | ⟨htag, -⟩ | ⟨htag, -⟩ := h <;> simp [htag, opcodeTags]

/-- Two register fields read one after the other are rejected exactly when one of them is. -/
theorem regFields_eq_error_iff {b c : Byte} {e : Invalid} {f : Reg → Reg → Instr} :
    ((regField b).bind fun d => (regField c).map (f d)) = .error e ↔
      e = .illegalRegister ∧ (5 ≤ b.toNat % 16 ∨ 5 ≤ c.toNat % 16) := by
  rw [except_bind_eq_error_iff]
  simp only [except_map_eq_error_iff, regField_eq_error_iff]
  cases hb : regField b with
  | ok d =>
    have hlow : ¬ 5 ≤ b.toNat % 16 := by
      rw [regField_eq_ok_iff.mp hb]
      exact Nat.not_le.mpr (regCode_toNat_lt_five d)
    simp [hlow]
  | error e' =>
    have hhigh : 5 ≤ b.toNat % 16 := (regField_eq_error_iff.mp hb).2
    simp [hhigh]

theorem decode_eq_error_iff (b : SlotBytes) (e : Invalid) :
    decode b = .error e ↔
      (e = .illegalOpcode ∧ b.b0 ∉ opcodeTags) ∨ (e = .illegalRegister ∧ b.HasIllegalField) := by
  cases b using SlotBytes.tagCases with
  | nop | moveMemImm | halt => simp [SlotBytes.HasIllegalField, opcodeTags]
  | moveRegImm | moveMemReg | moveRegMem =>
    simp [SlotBytes.HasIllegalField, opcodeTags, except_map_eq_error_iff, regField_eq_error_iff]
  | moveRegReg => simp [SlotBytes.HasIllegalField, opcodeTags, regFields_eq_error_iff]
  | untagged b h =>
    have hfield : ¬ b.HasIllegalField := fun hb => h hb.tag_mem
    simp [decode_untagged h, h, hfield, eq_comm]

theorem decode_eq_illegalOpcode_iff (b : SlotBytes) : decode b = .error .illegalOpcode ↔ b.b0 ∉ opcodeTags := by
  simp [decode_eq_error_iff]

theorem decode_eq_illegalRegister_iff (b : SlotBytes) : decode b = .error .illegalRegister ↔ b.HasIllegalField := by
  simp [decode_eq_error_iff]

end Sys2Proof

namespace Sys2Proof.Machine

/-! ### The fetch of an illegal word -/

theorem fetch_of_illegal {s : State} {e : Invalid} (h : s.ip.toNat < 64) (he : decode (s.slot s.ip.toNat) = .error e) :
    fetch s = .error (.raise (invalidCause e)) := by
  rw [fetch_of_lt s h, he]

/-- A step that fetches an illegal word raises the fault of that name and changes nothing else (R71, R182). -/
theorem step_of_illegal {s : State} {e : Invalid} (hf : s.fault = 0) (h : s.ip.toNat < 64)
    (he : decode (s.slot s.ip.toNat) = .error e) : step s = .next { s with fault := (invalidCause e).code } :=
  step_of_raised hf (fetch_of_illegal h he)

/-! ### FAULT after an execute stage and after a step (R92) -/

/-- The execute stage leaves FAULT or raises one of its two causes. -/
theorem exec_fault_cases {i : Instr} {s t : State} (h : exec i s = .next t) :
    t.fault = s.fault ∨ t.fault = Cause.dataOutOfRange.code ∨ t.fault = Cause.ipOperand.code := by
  rw [exec_eq] at h
  cases h
  split_ifs
  · exact .inl (effect_fault i s)
  · exact .inr (.inl rfl)
  · exact .inr (.inr rfl)

/-- The fault a step reports is the one FAULT holds after it, and all the step changes. -/
theorem step_of_fault_reported {s : State} {c : BitVec 3} (h : stepResult s = some (.fault c)) :
    step s = .next { s with fault := c } := by
  by_cases hf : s.fault = 0
  · cases hi : fetch s with
    | ok i =>
      rw [stepResult_of_fetched hf hi, Option.some.injEq] at h
      rw [step_of_fetched hf hi, exec_eq]
      split_ifs at h ⊢ <;> cases h <;> rfl
    | error e =>
      obtain ⟨c', rfl⟩ := fetch_error s hi
      rw [stepResult_of_raised hf hi] at h
      cases h
      exact step_of_raised hf hi
  · rw [stepResult_of_faulted hf] at h
    cases h
    exact step_of_faulted hf

/-! ### A text segment of encoded words (R73) -/

theorem decode_slot_of_textEncoded {s : State} (hs : s.TextEncoded) {j : Nat} (hj : j < 64) :
    ∃ i, s.slot j = encode i ∧ decode (s.slot j) = .ok i := by
  obtain ⟨i, hi⟩ := hs j hj
  exact ⟨i, hi, hi ▸ decode_encode i⟩

/-- Over encoded text a fetch fails for one cause only, an IP that names no slot. -/
theorem fetch_error_of_textEncoded {s : State} {c : Cause} (hs : s.TextEncoded) (h : fetch s = .error (.raise c)) :
    c = .fetchOutOfRange := by
  rcases Nat.lt_or_ge s.ip.toNat 64 with hlt | hge
  · obtain ⟨i, -, hi⟩ := decode_slot_of_textEncoded hs hlt
    rw [fetch_of_lt s hlt, hi] at h
    cases h
  · rw [fetch_of_ge s hge] at h
    cases h
    rfl

/-- The text is encoded and FAULT holds neither of the two causes of an illegal word. -/
def State.FreeOfIllegal (s : State) : Prop :=
  s.TextEncoded ∧ s.fault ≠ Cause.illegalOpcode.code ∧ s.fault ≠ Cause.illegalRegister.code

theorem freeOfIllegal_reset : State.reset.FreeOfIllegal := ⟨textEncoded_reset, by decide, by decide⟩

theorem freeOfIllegal_step {s t : State} (hs : s.FreeOfIllegal) (h : step s = .next t) : t.FreeOfIllegal := by
  obtain ⟨htext, hopcode, hregister⟩ := hs
  refine ⟨textEncoded_step htext h, ?_⟩
  by_cases hf : s.fault = 0
  · cases hi : fetch s with
    | ok i =>
      rw [step_of_fetched hf hi] at h
      obtain ht | ht | ht := exec_fault_cases h
      · exact ht ▸ ⟨hopcode, hregister⟩
      · exact ht ▸ ⟨by decide, by decide⟩
      · exact ht ▸ ⟨by decide, by decide⟩
    | error e =>
      obtain ⟨c, rfl⟩ := fetch_error s hi
      obtain rfl := fetch_error_of_textEncoded htext hi
      rw [step_of_raised hf hi] at h
      cases h
      rw [raiseFault_fault]
      decide
  · rw [step_of_faulted hf] at h
    cases h
    exact ⟨hopcode, hregister⟩

theorem freeOfIllegal_slotWritten {s : State} (j : Nat) (i : Instr) (hs : s.FreeOfIllegal) :
    State.FreeOfIllegal { s with mem := slotWritten s.mem j (encode i) } :=
  ⟨textEncoded_slotWritten j i hs.1, hs.2⟩

theorem freeOfIllegal_hostRun {ops : List HostOp} {s t : State} (hs : s.FreeOfIllegal) (h : hostRun ops s = some t) :
    t.FreeOfIllegal :=
  hostRun_keeps (fun _ _ _ _ => hostOp_keeps freeOfIllegal_reset (fun _ _ => freeOfIllegal_step)
    fun _ j i _ => freeOfIllegal_slotWritten j i) hs h

/-! ### The obligations of the family -/

/-- Settles O5: `encode_of_decode` says what encoding a decoded word gives, the word with its ignored bits cleared; two
`Nop` words differ in an ignored byte. -/
theorem decodeEncodeRoundTrip : Obligations.DecodeEncodeRoundTrip := by
  refine ⟨decode_encode, fun b i h => ?_, ⟨0x00, 0x00, 0x00, 0x00⟩, ⟨0x00, 0x12, 0x34, 0x56⟩, by decide, ?_, ?_⟩
  · rw [encode_of_decode h]
  · exact decode_nop ..
  · exact decode_nop ..

/-- Settles O6: words that clear to the same word decode as that word does. -/
theorem ignoredBitsAreNotRead : Obligations.IgnoredBitsAreNotRead := by
  refine ⟨decode_clearIgnored, fun b c h => ?_, clearIgnored_encode⟩
  rw [← decode_clearIgnored b, h, decode_clearIgnored]

/-- Settles O8: by which words the decoder rejects and why (`decode_eq_error_iff`), and the step on such a word. -/
theorem illegalEncodingsFault : Obligations.IllegalEncodingsFault :=
  ⟨decode_eq_illegalOpcode_iff, decode_eq_illegalRegister_iff, fun _ => step_of_illegal, fun _ => step_of_illegal⟩

/-- Settles O39: along the run the text stays encoded and FAULT free of both causes, after the next step too; that FAULT
is what the step reports. -/
theorem illegalWordsAreNeverFetched : Obligations.IllegalWordsAreNeverFetched := by
  intro ops s hrun
  have hs : s.FreeOfIllegal := freeOfIllegal_hostRun freeOfIllegal_reset hrun
  refine ⟨fun j => decode_slot_of_textEncoded hs.1, fun h => ?_, fun h => ?_⟩
  · obtain ⟨-, hopcode, -⟩ := freeOfIllegal_step hs (step_of_fault_reported h)
    exact hopcode rfl
  · obtain ⟨-, -, hregister⟩ := freeOfIllegal_step hs (step_of_fault_reported h)
    exact hregister rfl

/-- Settles O7: a register byte is its code, the two offset bytes the quotient and the remainder by 256. -/
theorem encoderWritesCanonicalWords : Obligations.EncoderWritesCanonicalWords := by
  refine ⟨rfl, fun d v => ?_, fun d r => ?_, fun o v => ?_, fun o r => ?_, fun d o => ?_, rfl⟩
  all_goals simp only [encode, regByte_eq_ofNat, offsetHi_eq_ofNat, offsetLo_eq_ofNat]

/-- Settles O9: `Nop` and `Halt` by their decoding for any ignored bytes, the five moves by computing. -/
theorem specWordsDecode : Obligations.SpecWordsDecode :=
  ⟨decode_nop .., by decide, by decide, by decide, by decide, by decide, decode_halt ..⟩

/-- Settles O10: the textual form is defined by these equations. -/
theorem textFormsAreCanonical : Obligations.TextFormsAreCanonical :=
  ⟨rfl, rfl, rfl, fun _ _ => rfl, fun _ _ => rfl, fun _ _ => rfl, fun _ _ => rfl, fun _ _ => rfl⟩

end Sys2Proof.Machine

/-! PROOFS. The engine family (40_engine.md): what a step answers and reports (R92), the end of a run (R104), and that
control never depends on the general registers or the data segment (R101). -/

namespace Sys2Proof.Machine

/-! ### The fetch and the placed word (R94, R95) -/

/-- A fetch gives an instruction exactly when IP names a slot that decodes to it. -/
theorem fetch_eq_ok_iff {s : State} {i : Instr} :
    fetch s = .ok i ↔ s.ip.toNat < 64 ∧ decode (s.slot s.ip.toNat) = .ok i :=
  ⟨fetch_ok s, fun ⟨hip, hdec⟩ => by rw [fetch_of_lt s hip, hdec]⟩

theorem readyToFetch_ip_lt (s : State) : s.readyToFetch.ip.toNat < 64 := by
  by_cases h : s.ip.toNat < 64 <;> simp [State.readyToFetch, h]

theorem withFetchWord_eq (s : State) (nbits w : Nat) :
    s.withFetchWord nbits w =
      { s.readyToFetch with mem := slotWritten s.mem s.readyToFetch.ip.toNat (tableBytes nbits w) } := by
  rw [State.withFetchWord, textWrite_of_lt _ _ (readyToFetch_ip_lt s)]
  rfl

theorem decodeTableWord_eq_some_iff {nbits w : Nat} {i : Instr} :
    decodeTableWord nbits w = some i ↔ decode (tableBytes nbits w) = .ok i := by
  unfold decodeTableWord
  cases decode (tableBytes nbits w) <;> simp

/-- The word placed by `withFetchWord` is the one fetched next. -/
theorem fetch_withFetchWord {nbits w : Nat} {i : Instr} (s : State) (h : decodeTableWord nbits w = some i) :
    fetch (s.withFetchWord nbits w) = .ok i := by
  rw [withFetchWord_eq]
  refine fetch_eq_ok_iff.mpr ⟨readyToFetch_ip_lt s, ?_⟩
  have hslot := slot_slotWritten s.readyToFetch s.readyToFetch.ip.toNat s.readyToFetch.ip.toNat (tableBytes nbits w)
  rw [if_pos rfl] at hslot
  exact (congrArg decode hslot).trans (decodeTableWord_eq_some_iff.mp h)

/-! ### What a step reports (R92) -/

/-- A reported fault is the one held, or else a cause raised by this step. -/
theorem stepResult_fault_cases {s : State} {c : BitVec 3} (h : stepResult s = some (.fault c)) :
    (s.fault ≠ 0 ∧ c = s.fault) ∨ ∃ cause : Cause, c = cause.code := by
  by_cases hf : s.fault = 0
  · right
    cases hi : fetch s with
    | error e =>
      obtain ⟨cause, rfl⟩ := fetch_error s hi
      rw [stepResult_of_raised hf hi] at h
      cases h
      exact ⟨cause, rfl⟩
    | ok i =>
      rw [stepResult_of_fetched hf hi, Option.some.injEq] at h
      split_ifs at h <;> cases h <;> exact ⟨_, rfl⟩
  · rw [stepResult_of_faulted hf] at h
    cases h
    exact .inl ⟨hf, rfl⟩

theorem reportedFault_ne_zero {s : State} {c : BitVec 3} (h : stepResult s = some (.fault c)) : c ≠ 0 := by
  obtain ⟨hf, rfl⟩ | ⟨cause, rfl⟩ := stepResult_fault_cases h
  · exact hf
  · exact code_ne_zero cause

theorem reportedFault_le_five {s : State} {c : BitVec 3} (h : stepResult s = some (.fault c))
    (hs : s.fault.toNat ≤ 5) : c.toNat ≤ 5 := by
  obtain ⟨-, rfl⟩ | ⟨cause, rfl⟩ := stepResult_fault_cases h
  · exact hs
  · exact code_le_five cause

/-- Every step either reports an executed instruction and has its effect, or reports a fault and changes FAULT alone. -/
theorem step_reports (s : State) :
    (∃ i, stepResult s = some (.executed i) ∧ step s = .next (effect i s)) ∨
    (∃ c, stepResult s = some (.fault c) ∧ step s = .next { s with fault := c }) := by
  obtain ⟨t, r, -, hr⟩ := step_completes s
  cases r with
  | executed i =>
    obtain ⟨-, -, -, -, hstep⟩ := step_of_executed hr
    exact .inl ⟨i, hr, hstep⟩
  | fault c => exact .inr ⟨c, hr, step_of_fault_reported hr⟩

/-! ### IP after a step (R97) -/

/-- IP after a step that starts at `ip`, from the step's result. -/
def StepResult.nextIp (ip : Byte) : StepResult → Byte
  | .executed i => if i = .halt then ip else ip + 1
  | .fault _ => ip

/-- FAULT after a step, from the step's result. -/
def StepResult.nextFault : StepResult → BitVec 3
  | .executed _ => 0
  | .fault c => c

/-- A step's result fixes IP and FAULT after it. -/
theorem control_step {s t : State} {r : StepResult} (h : step s = .next t) (hr : stepResult s = some r) :
    t.ip = r.nextIp s.ip ∧ t.fault = r.nextFault := by
  cases r with
  | executed i =>
    obtain ⟨hf, -, hn, -, hstep⟩ := step_of_executed hr
    cases hstep.symm.trans h
    refine ⟨?_, (effect_fault i s).trans hf⟩
    by_cases hi : i = .halt
    · subst hi
      rfl
    · rw [effect_ip s hn hi, StepResult.nextIp, if_neg hi]
  | fault c =>
    cases (step_of_fault_reported hr).symm.trans h
    exact ⟨rfl, rfl⟩

/-- A step that executes anything but `Halt` starts at a slot and moves IP to the next one, without wrapping. -/
theorem ip_step_of_executed {s t : State} {i : Instr} (h : step s = .next t) (hr : stepResult s = some (.executed i))
    (hi : i ≠ .halt) : s.ip.toNat < 64 ∧ t.ip = s.ip + 1 ∧ t.ip.toNat = s.ip.toNat + 1 := by
  obtain ⟨-, hfetch, -⟩ := step_of_executed hr
  have hlt : s.ip.toNat < 64 := (fetch_ok s hfetch).1
  have hip : t.ip = s.ip + 1 := (control_step h hr).1.trans (if_neg hi)
  refine ⟨hlt, hip, ?_⟩
  rw [hip]
  bv_omega

/-! ### Runs -/

/-- A run begins with a step, on any machine behind the host's interface. -/
theorem coreRun_succ {M : Host.Core} {s t : M.State} (h : M.step s = .next t) (n : Nat) :
    M.run (n + 1) s = M.run n t := by
  rw [Host.Core.run, h]

theorem run_succ {s t : State} (h : step s = .next t) (n : Nat) : core.run (n + 1) s = core.run n t :=
  coreRun_succ (M := core) h n

/-- A state that a step leaves as it is stays so through any number of steps. -/
theorem run_of_step_self {s : State} (h : step s = .next s) (n : Nat) : core.run n s = .next s := by
  induction n with
  | zero => rfl
  | succ n ih => rw [run_succ h, ih]

/-! ### The end of a run (R104) -/

theorem endsRun_iff (s : State) :
    s.endsRun = true ↔ stepResult s = some (.executed .halt) ∨ ∃ c, stepResult s = some (.fault c) := by
  unfold State.endsRun
  split <;> simp_all

/-- The step that ends a run gives a state that every further step keeps, reporting the same. -/
theorem step_of_endsRun {s : State} (h : s.endsRun = true) :
    ∃ t, step s = .next t ∧ stepResult t = stepResult s ∧ step t = .next t := by
  obtain hr | ⟨c, hr⟩ := (endsRun_iff s).mp h
  · obtain ⟨-, -, -, -, hstep⟩ := step_of_executed hr
    exact ⟨s, hstep, rfl, hstep⟩
  · have hheld : ({ s with fault := c } : State).fault ≠ 0 := reportedFault_ne_zero hr
    exact ⟨_, step_of_fault_reported hr, (stepResult_of_faulted hheld).trans hr.symm, step_of_faulted hheld⟩

/-- A step that does not end its run starts at a slot and moves IP to the next one. -/
theorem step_of_not_endsRun {s : State} (h : ¬ s.endsRun = true) :
    ∃ t, step s = .next t ∧ s.ip.toNat < 64 ∧ t.ip.toNat = s.ip.toNat + 1 := by
  rw [endsRun_iff, not_or] at h
  obtain ⟨hhalt, hfault⟩ := h
  obtain ⟨i, hr, hstep⟩ | ⟨c, hr, -⟩ := step_reports s
  · have hi : i ≠ .halt := fun hi => hhalt (hi ▸ hr)
    obtain ⟨hlt, -, hip⟩ := ip_step_of_executed hstep hr hi
    exact ⟨_, hstep, hlt, hip⟩
  · exact absurd ⟨c, hr⟩ hfault

/-- Every run ends: `k` bounds the number of slots from IP on, which each step that does not end the run lowers. -/
theorem exists_run_endsRun (k : Nat) (s : State) (hk : 64 - s.ip.toNat ≤ k) :
    ∃ n t, n ≤ 64 - s.ip.toNat ∧ core.run n s = .next t ∧ t.endsRun = true := by
  induction k generalizing s with
  | zero =>
    by_cases h : s.endsRun = true
    · exact ⟨0, s, Nat.zero_le _, rfl, h⟩
    · obtain ⟨-, -, hlt, -⟩ := step_of_not_endsRun h
      omega
  | succ k ih =>
    by_cases h : s.endsRun = true
    · exact ⟨0, s, Nat.zero_le _, rfl, h⟩
    · obtain ⟨u, hstep, hlt, hip⟩ := step_of_not_endsRun h
      obtain ⟨n, t, hn, hrun, ht⟩ := ih u (by omega)
      exact ⟨n + 1, t, by omega, (run_succ hstep n).trans hrun, ht⟩

/-! ### Control does not depend on data (R101) -/

/-- The two states hold the same IP, the same FAULT and the same text bytes. -/
def State.SameControl (s u : State) : Prop :=
  s.ip = u.ip ∧ s.fault = u.fault ∧ ∀ a, a < 256 → s.mem.read a = u.mem.read a

theorem stepResult_congr {s u : State} (h : s.SameControl u) : stepResult s = stepResult u := by
  obtain ⟨hip, hfault, htext⟩ := h
  by_cases hf : u.fault = 0
  · have hfs : s.fault = 0 := hfault.trans hf
    have hfetch : fetch s = fetch u := fetch_congr hip htext
    cases hi : fetch u with
    | ok i => rw [stepResult_of_fetched hfs (hfetch.trans hi), stepResult_of_fetched hf hi]
    | error e =>
      obtain ⟨c, rfl⟩ := fetch_error u hi
      rw [stepResult_of_raised hfs (hfetch.trans hi), stepResult_of_raised hf hi]
  · rw [stepResult_of_faulted hf, stepResult_of_faulted (hfault ▸ hf), hfault]

/-- Steps keep the agreement: both give one result, which fixes IP and FAULT, and neither writes a text byte. -/
theorem sameControl_step {s u s' u' : State} (h : s.SameControl u) (hs : step s = .next s') (hu : step u = .next u') :
    s'.SameControl u' := by
  obtain ⟨-, r, -, hr⟩ := step_completes u
  obtain ⟨hips, hfaults⟩ := control_step hs ((stepResult_congr h).trans hr)
  obtain ⟨hipu, hfaultu⟩ := control_step hu hr
  obtain ⟨hip, -, htext⟩ := h
  refine ⟨by rw [hips, hipu, hip], hfaults.trans hfaultu.symm, fun a ha => ?_⟩
  rw [read_step_of_text hs ha, htext a ha, read_step_of_text hu ha]

theorem sameControl_run {n : Nat} {s u s' u' : State} (h : s.SameControl u) (hs : core.run n s = .next s')
    (hu : core.run n u = .next u') : s'.SameControl u' := by
  induction n generalizing s u with
  | zero =>
    cases hs
    cases hu
    exact h
  | succ n ih =>
    obtain ⟨s₁, -, hs₁, -⟩ := step_completes s
    obtain ⟨u₁, -, hu₁, -⟩ := step_completes u
    rw [run_succ hs₁] at hs
    rw [run_succ hu₁] at hu
    exact ih (sameControl_step h hs₁ hu₁) hs hu

/-! ### The obligations of the family -/

/-- Settles O43: agreement on IP, FAULT and text is kept along the run and fixes the next step's result. -/
theorem controlDoesNotDependOnData : Obligations.ControlDoesNotDependOnData := by
  intro n s u s' u' hip hfault htext hs hu
  have h : s'.SameControl u' := sameControl_run ⟨hip, hfault, htext⟩ hs hu
  have hres : stepResult s' = stepResult u' := stepResult_congr h
  obtain ⟨hip', hfault', htext'⟩ := h
  exact ⟨hip', hfault', htext', hres⟩

/-- Settles O23: by the two reports of a step. -/
theorem stepResultIsExecutedOrFault : Obligations.StepResultIsExecutedOrFault := by
  intro s
  obtain ⟨i, hr, hstep⟩ | ⟨c, hr, hstep⟩ := step_reports s
  · obtain ⟨hf, hfetch, -⟩ := step_of_executed hr
    obtain ⟨hlt, hdec⟩ := fetch_ok s hfetch
    exact ⟨_, _, hstep, hr, .inl ⟨i, rfl, hf, hlt, hdec, (step_of_fetched hf hfetch).symm.trans hstep,
      (effect_fault i s).trans hf⟩⟩
  · exact ⟨_, _, hstep, hr, .inr ⟨c, rfl, rfl, reportedFault_ne_zero hr, reportedFault_le_five hr⟩⟩

/-- Settles O24: the step keeps a faulted state, so a run of any length does. -/
theorem faultedStepDoesNothing : Obligations.FaultedStepDoesNothing := fun _ hf =>
  ⟨step_of_faulted hf, stepResult_of_faulted hf, run_of_step_self (step_of_faulted hf)⟩

/-- Settles O26: the step's result fixes IP after it, and an executed instruction was fetched from below 64. -/
theorem ipAdvancesByOneOrStays : Obligations.IpAdvancesByOneOrStays := by
  intro s
  obtain ⟨t, -, hstep, -⟩ := step_completes s
  refine ⟨t, hstep, fun i hr hi => ?_, fun hr => (control_step hstep hr).1, fun c hr => (control_step hstep hr).1⟩
  obtain ⟨hlt, hip, hnat⟩ := ip_step_of_executed hstep hr hi
  exact ⟨hip, hnat, by omega⟩

/-- Settles O27: in each of the three branches of `runState`. -/
theorem runConditionIsAFunctionOfState : Obligations.RunConditionIsAFunctionOfState := by
  intro s
  rw [← fetch_eq_ok_iff]
  by_cases hf : s.fault = 0
  · by_cases hi : fetch s = .ok .halt
    · have hcond : s.runState = .halted := by simp [State.runState, hf, hi]
      simp [hcond, hf, hi]
    · have hcond : s.runState = .running := by simp [State.runState, hf, hi]
      simp [hcond, hf, hi]
  · have hcond : s.runState = .faulted := if_pos hf
    simp_all

/-- Settles O28: with the word placed FAULT is 0 and the word is fetched. -/
theorem placedWordIsTheNextInstruction : Obligations.PlacedWordIsTheNextInstruction := by
  intro s w i h
  have hf : (s.withFetchWord 32 w).fault = 0 := by rw [withFetchWord_eq]; rfl
  exact step_of_fetched hf (fetch_withFetchWord s h)

/-- Settles O41: the ending step gives a state that a step keeps, so a run of any length does. -/
theorem endedRunStaysEnded : Obligations.EndedRunStaysEnded := by
  intro s h
  obtain ⟨t, hstep, hres, hself⟩ := step_of_endsRun h
  exact ⟨t, hstep, hres, run_of_step_self hself⟩

/-- Settles O42: every step that does not end the run takes IP one slot further. -/
theorem everyRunEndsWithinSixtyFiveSteps : Obligations.EveryRunEndsWithinSixtyFiveSteps :=
  fun s => exists_run_endsRun _ s le_rfl

/-- Settles O20: the fetch gives the instruction that the slot at IP decodes to. -/
theorem stepRunsDecodedInstruction : Obligations.StepRunsDecodedInstruction := fun _ _ hf hlt hdec =>
  step_of_fetched hf (fetch_eq_ok_iff.mpr ⟨hlt, hdec⟩)

/-- Settles O34: the operation is defined so. -/
theorem observeChangesNothing : Obligations.ObserveChangesNothing := fun _ => rfl

end Sys2Proof.Machine

/-! PROOFS. The `Nop` family (41_nop.md): the tag alone makes a slot a `Nop`, and the execute stage only advances IP
(R110). -/

namespace Sys2Proof.Machine

theorem decode_of_nopTag {b : SlotBytes} (h : b.b0 = 0x00) : decode b = .ok .nop := by
  obtain ⟨b0, b1, b2, b3⟩ := b
  cases h
  exact decode_nop b1 b2 b3

theorem advanceIp_eq (s : State) : s.advanceIp = { s with ip := s.ip + 1 } := rfl

theorem keepsRegsBut_advanceIp (s : State) : keepsRegsBut [] s s.advanceIp := fun r hr _ => getReg_advanceIp s r hr

theorem exec_nop (s : State) : exec .nop s = .next s.advanceIp := exec_eq .nop s

/-- A step from a slot with the tag of `Nop` only advances IP, whatever the other three bytes hold (R110). -/
theorem step_of_nopTag {s : State} (hf : s.fault = 0) (hip : s.ip.toNat < 64)
    (htag : (s.slot s.ip.toNat).b0 = 0x00) : step s = .next s.advanceIp :=
  (step_of_fetched hf (fetch_eq_ok_iff.mpr ⟨hip, decode_of_nopTag htag⟩)).trans (exec_nop s)

/-- Settles O11: a `Nop` is one advance of IP, and from slot 63 that leaves IP at 64, where no slot is. -/
theorem nopOnlyAdvancesIp : Obligations.NopOnlyAdvancesIp := by
  refine ⟨decode_nop, rfl, fun s => ?_, fun s hf hip htag => ⟨?_, ?_⟩⟩
  · exact ⟨s.advanceIp, exec_nop s, advanceIp_ip s, keepsRegsBut_advanceIp s, advanceIp_fault s, advanceIp_mem s,
      fun _ _ => rfl⟩
  · have hslot : s.ip.toNat = 63 := by rw [hip]; rfl
    rw [step_of_nopTag hf (by omega) (hslot ▸ htag), advanceIp_eq, hip]
    rfl
  · exact step_of_ip_ge hf (le_refl 64)

end Sys2Proof.Machine

/-! PROOFS. The move family (42_move.md): what each move decodes from and encodes to, its effect with what it leaves
unchanged, and its faults in their order, IpOperand before DataOutOfRange. -/

namespace Sys2Proof

/-! ### The words of the moves (R63, R66) -/

theorem offsetOf_eq_ofNat (a b : Byte) : offsetOf a b = BitVec.ofNat 16 (a.toNat * 256 + b.toNat) := by
  rw [← offsetOf_toNat, BitVec.ofNat_toNat, BitVec.setWidth_eq]

section
variable {d r : Reg} {b1 b2 b3 : Byte}

theorem decode_moveRegImm_of_field (hd : b1.toNat % 16 = (regCode d).toNat) :
    decode ⟨0x10#8, b1, b2, b3⟩ = .ok (.moveRegImm d b2) := by
  rw [decode_moveRegImm, regField_eq_ok_iff.mpr hd]
  rfl

theorem decode_moveRegReg_of_fields (hd : b1.toNat % 16 = (regCode d).toNat)
    (hr : b2.toNat % 16 = (regCode r).toNat) : decode ⟨0x11#8, b1, b2, b3⟩ = .ok (.moveRegReg d r) := by
  rw [decode_moveRegReg, regField_eq_ok_iff.mpr hd, regField_eq_ok_iff.mpr hr]
  rfl

theorem decode_moveMemReg_of_field (hr : b3.toNat % 16 = (regCode r).toNat) :
    decode ⟨0x21#8, b1, b2, b3⟩ = .ok (.moveMemReg (BitVec.ofNat 16 (b1.toNat * 256 + b2.toNat)) r) := by
  rw [decode_moveMemReg, regField_eq_ok_iff.mpr hr, offsetOf_eq_ofNat]
  rfl

theorem decode_moveRegMem_of_field (hd : b1.toNat % 16 = (regCode d).toNat) :
    decode ⟨0x22#8, b1, b2, b3⟩ = .ok (.moveRegMem d (BitVec.ofNat 16 (b2.toNat * 256 + b3.toNat))) := by
  rw [decode_moveRegMem, regField_eq_ok_iff.mpr hd, offsetOf_eq_ofNat]
  rfl

end

end Sys2Proof

namespace Sys2Proof.Machine

/-! ### The three outcomes of an execute stage, each from its condition on the operands (R120, R46, R47) -/

section
variable {i : Instr} (s : State)

theorem exec_of_namesIp (h : .ip ∈ i.namedRegs) : exec i s = .next { s with fault := 4 } := by
  rw [exec_eq, if_neg (mt (namesNoIp_iff i).mp (not_not_intro h))]
  rfl

theorem exec_of_offset_ge {o : Offset} (hn : .ip ∉ i.namedRegs) (hi : i.offset? = some o) (ho : 768 ≤ o.toNat) :
    exec i s = .next { s with fault := 5 } := by
  have hout : ¬ i.offsetInData = true := fun h => absurd ((offsetInData_iff i).mp h o hi) (Nat.not_lt.mpr ho)
  rw [exec_eq, if_pos ((namesNoIp_iff i).mpr hn), if_neg hout]
  rfl

theorem exec_of_offsetInData (hn : .ip ∉ i.namedRegs) (ho : i.offsetInData = true) :
    exec i s = .next (effect i s) := by
  rw [exec_eq, if_pos ((namesNoIp_iff i).mpr hn), if_pos ho]

theorem exec_of_offset_lt {o : Offset} (hn : .ip ∉ i.namedRegs) (hi : i.offset? = some o) (ho : o.toNat < 768) :
    exec i s = .next (effect i s) :=
  exec_of_offsetInData s hn ((offsetInData_iff i).mpr fun _ h => Option.some.inj (hi.symm.trans h) ▸ ho)

end

theorem ip_not_mem_singleton {r : Reg} (h : r ≠ .ip) : .ip ∉ [r] := mt List.mem_singleton.mp h.symm

/-! ### What a register load and a byte store change -/

/-- From `s` to `t`, register `d` takes the value `v`, IP advances, and nothing else changes. -/
def RegLoaded (d : Reg) (v : Byte) (s t : State) : Prop :=
  t.getReg d = v ∧ t.ip = s.ip + 1 ∧ keepsRegsBut [d] s t ∧ t.fault = s.fault ∧ t.mem = s.mem ∧ keepsBytesBut [] s t

theorem regLoaded_setReg {d : Reg} (v : Byte) (s : State) (hd : d ≠ .ip) :
    RegLoaded d v s (s.setReg d v).advanceIp := by
  refine ⟨?_, ?_, fun q hq hqd => ?_, setReg_fault s d v, setReg_mem s d v, fun a _ => ?_⟩
  · rw [getReg_advanceIp _ d hd, getReg_setReg_self]
  · rw [advanceIp_ip, setReg_ip_of_ne s d v hd]
  · rw [getReg_advanceIp _ q hq, getReg_setReg_of_ne s d v (List.ne_of_not_mem_cons hqd)]
  · rw [advanceIp_mem, setReg_mem]

/-- From `s` to `t`, the data byte at offset `o` takes the value `v`, IP advances, and nothing else changes. -/
def ByteStored (o : Offset) (v : Byte) (s t : State) : Prop :=
  dataAddr o = 256 + o.toNat ∧ t.mem.read (dataAddr o) = v ∧ keepsBytesBut [dataAddr o] s t ∧ keepsRegsBut [] s t ∧
    t.ip = s.ip + 1 ∧ t.fault = s.fault

theorem byteStored_write (o : Offset) (v : Byte) (s : State) :
    ByteStored o v s (State.advanceIp { s with mem := s.mem.write (256 + o.toNat) v }) :=
  ⟨rfl, read_write_self s.mem _ v, keepsBytesBut_write s _ v,
    fun q hq _ => (getReg_advanceIp _ q hq).trans (getReg_with_mem s q _), rfl, rfl⟩

/-! ### The obligations of the family -/

/-- Settles O12: the low nibble names the register; the effect is one register load. -/
theorem moveRegImmLoadsImmediate : Obligations.MoveRegImmLoadsImmediate := by
  obtain ⟨-, hencode, -⟩ := encoderWritesCanonicalWords
  refine ⟨fun d b1 b2 b3 => decode_moveRegImm_of_field, fun b1 b2 b3 h => ?_, hencode, fun d v s hd => ?_,
    fun v s => exec_of_namesIp s (List.mem_singleton_self _)⟩
  · exact (decode_eq_illegalRegister_iff _).mpr (.inl ⟨rfl, h⟩)
  · exact ⟨_, exec_of_offsetInData s (ip_not_mem_singleton hd) rfl, regLoaded_setReg v s hd⟩

/-- Settles O13: the effect is one register load; the source keeps its value, as the destination or by the frame. -/
theorem moveRegRegCopiesRegister : Obligations.MoveRegRegCopiesRegister := by
  obtain ⟨-, -, hencode, -⟩ := encoderWritesCanonicalWords
  refine ⟨fun d r b1 b2 b3 => decode_moveRegReg_of_fields, fun b1 b2 b3 h => ?_, hencode, fun d r s hd hr => ?_,
    fun d r s h => ?_⟩
  · exact (decode_eq_illegalRegister_iff _).mpr (.inr (.inl ⟨rfl, h⟩))
  · have hn : .ip ∉ (Instr.moveRegReg d r).namedRegs := by simp [Instr.namedRegs, hd.symm, hr.symm]
    obtain ⟨hdst, hip, hregs, hrest⟩ := regLoaded_setReg (s.getReg r) s hd
    refine ⟨_, exec_of_offsetInData s hn rfl, hdst, ?_, hip, hregs, hrest⟩
    by_cases hrd : r = d
    · rw [hrd] at hdst ⊢
      exact hdst
    · exact hregs r hr (mt List.mem_singleton.mp hrd)
  · exact exec_of_namesIp s (by simpa [Instr.namedRegs, eq_comm] using h)

/-- Settles O14: no register is named, so the offset alone decides between one byte store and DataOutOfRange. -/
theorem moveMemImmStoresImmediate : Obligations.MoveMemImmStoresImmediate := by
  obtain ⟨-, -, -, hencode, -⟩ := encoderWritesCanonicalWords
  refine ⟨fun b1 b2 b3 => ?_, hencode, fun o v s ho => ?_,
    fun o v s => exec_of_offset_ge s List.not_mem_nil rfl⟩
  · rw [← offsetOf_eq_ofNat]
    exact decode_moveMemImm b1 b2 b3
  · exact ⟨_, exec_of_offset_lt s List.not_mem_nil rfl ho, byteStored_write o v s⟩

/-- Settles O15: an IP operand faults whatever the offset; without one, the offset decides between one byte store and
DataOutOfRange. -/
theorem moveMemRegStoresRegister : Obligations.MoveMemRegStoresRegister := by
  obtain ⟨-, -, -, -, hencode, -⟩ := encoderWritesCanonicalWords
  refine ⟨fun r b1 b2 b3 => decode_moveMemReg_of_field, fun b1 b2 b3 h => ?_, hencode, fun o r s hr ho => ?_,
    fun o s => exec_of_namesIp s (List.mem_singleton_self _),
    fun o r s hr => exec_of_offset_ge s (ip_not_mem_singleton hr) rfl⟩
  · exact (decode_eq_illegalRegister_iff _).mpr (.inr (.inr (.inl ⟨rfl, h⟩)))
  · exact ⟨_, exec_of_offset_lt s (ip_not_mem_singleton hr) rfl ho, byteStored_write o (s.getReg r) s⟩

/-- Settles O16: an IP operand faults whatever the offset; without one, the offset decides between one register load and
DataOutOfRange. -/
theorem moveRegMemLoadsDataByte : Obligations.MoveRegMemLoadsDataByte := by
  obtain ⟨-, -, -, -, -, hencode, -⟩ := encoderWritesCanonicalWords
  refine ⟨fun d b1 b2 b3 => decode_moveRegMem_of_field, fun b1 b2 b3 h => ?_, hencode, fun d o s hd ho => ?_,
    fun o s => exec_of_namesIp s (List.mem_singleton_self _),
    fun d o s hd => exec_of_offset_ge s (ip_not_mem_singleton hd) rfl⟩
  · exact (decode_eq_illegalRegister_iff _).mpr (.inr (.inr (.inr ⟨rfl, h⟩)))
  · exact ⟨_, exec_of_offset_lt s (ip_not_mem_singleton hd) rfl ho, regLoaded_setReg (s.dataByte o.toNat) s hd⟩

/-- Settles O19: each of the five forms names IP; `MoveMemImm` leaves FAULT or raises DataOutOfRange, whose code is
not 4. -/
theorem ipOperandFaultsFirst : Obligations.IpOperandFaultsFirst := by
  refine ⟨fun i s h => exec_of_namesIp s ?_, fun o v s t h hft => ?_⟩
  · obtain ⟨v, rfl⟩ | ⟨r, rfl⟩ | ⟨r, rfl⟩ | ⟨o, rfl⟩ | ⟨o, rfl⟩ := h
    all_goals simp [Instr.namedRegs]
  · rcases Nat.lt_or_ge o.toNat 768 with ho | ho
    · rw [exec_of_offset_lt s List.not_mem_nil rfl ho] at h
      cases h
      exact hft
    · rw [exec_of_offset_ge s List.not_mem_nil rfl ho] at h
      cases h
      exact absurd hft (by decide : (5 : BitVec 3) ≠ 4)

end Sys2Proof.Machine

/-! PROOFS. The `Halt` family (43_halt.md): the tag alone makes a slot a `Halt`, a halted core stays in its state
(R103, R170), and only a load into its slot or a reset ends that (R171). -/

namespace Sys2Proof.Machine

/-! ### The halted condition -/

theorem decode_of_haltTag {b : SlotBytes} (h : b.b0 = 0xFF) : decode b = .ok .halt := by
  obtain ⟨b0, b1, b2, b3⟩ := b
  cases h
  exact decode_halt b1 b2 b3

theorem runState_eq_halted_iff {s : State} :
    s.runState = .halted ↔ s.fault = 0 ∧ s.ip.toNat < 64 ∧ decode (s.slot s.ip.toNat) = .ok .halt := by
  obtain ⟨-, hhalted, -⟩ := runConditionIsAFunctionOfState s
  exact hhalted

theorem exec_halt (s : State) : exec .halt s = .next s := exec_eq .halt s

/-- A step of a halted core changes nothing and reports `Executed(Halt)` (R103). -/
theorem step_of_halted {s : State} (h : s.runState = .halted) :
    step s = .next s ∧ stepResult s = some (.executed .halt) := by
  obtain ⟨hf, hslot⟩ := runState_eq_halted_iff.mp h
  have hfetch : fetch s = .ok .halt := fetch_eq_ok_iff.mpr hslot
  exact ⟨(step_of_fetched hf hfetch).trans (exec_halt s), stepResult_of_fetched hf hfetch⟩

/-! ### What a load keeps (R214) -/

/-- A load changes the buffer alone. -/
theorem exists_with_mem_of_load {p : List Instr} {s t : State} {r : LoadResult} (h : load p s = .next (t, r)) :
    ∃ m, t = { s with mem := m } := by
  obtain ⟨-, rfl, -⟩ | ⟨-, hl, -⟩ := load_cases h
  · exact ⟨t.mem, rfl⟩
  · refine loadFrom_keeps (P := fun u => ∃ m, u = { s with mem := m }) ?_ ⟨s.mem, rfl⟩ hl
    rintro _ j i - ⟨m, rfl⟩
    exact ⟨_, rfl⟩

theorem load_ip {p : List Instr} {s t : State} {r : LoadResult} (h : load p s = .next (t, r)) : t.ip = s.ip := by
  obtain ⟨m, rfl⟩ := exists_with_mem_of_load h
  rfl

theorem load_fault {p : List Instr} {s t : State} {r : LoadResult} (h : load p s = .next (t, r)) :
    t.fault = s.fault := by
  obtain ⟨m, rfl⟩ := exists_with_mem_of_load h
  rfl

/-- A load that leaves the slot at IP as it was leaves a halted core halted. -/
theorem halted_load_of_slot_eq {p : List Instr} {s t : State} {r : LoadResult} (hs : s.runState = .halted)
    (h : load p s = .next (t, r)) (hslot : t.slot s.ip.toNat = s.slot s.ip.toNat) : t.runState = .halted := by
  rw [runState_eq_halted_iff] at hs ⊢
  rwa [load_fault h, load_ip h, hslot]

/-! ### The obligations of the family -/

/-- Settles O17: `Halt` has no effect, so a step keeps a halted core and a run of any length does; a load keeps FAULT
and IP, so the next step executes the instruction loaded at IP. -/
theorem haltFreezesTheCore : Obligations.HaltFreezesTheCore := by
  refine ⟨decode_halt, rfl, fun s => ?_, fun s hf hip htag n => ?_, fun s t p i hs hload hi => ?_⟩
  · exact ⟨s, exec_halt s, rfl, fun _ _ _ => rfl, rfl, rfl, fun _ _ => rfl⟩
  · have hs : s.runState = .halted := runState_eq_halted_iff.mpr ⟨hf, hip, decode_of_haltTag htag⟩
    obtain ⟨hstep, hr⟩ := step_of_halted hs
    exact ⟨run_of_step_self hstep n, hstep, hr⟩
  · obtain ⟨hf, -⟩ := runState_eq_halted_iff.mp hs
    exact loadedInstructionIsFetchedNext p s t i hload ((load_fault hload).trans hf) (load_ip hload ▸ hi)

/-- Settles O18: of the host operations, a step and an observation keep the state of a halted core, and a load that
leaves the slot at IP keeps it halted. -/
theorem haltedIsLeftOnlyByLoadOrReset : Obligations.HaltedIsLeftOnlyByLoadOrReset := by
  intro op s t r hs h
  obtain ⟨rfl, -⟩ | ⟨p, r', rfl, hload⟩ | ⟨rfl, hstep⟩ | ⟨rfl, -⟩ | ⟨rfl, rfl⟩ := hostOp_cases h
  · exact ⟨nofun, fun _ => .inr (.inl rfl)⟩
  · exact ⟨nofun, fun ht => .inr (.inr ⟨p, rfl, fun hslot => ht (halted_load_of_slot_eq hs hload hslot)⟩)⟩
  · cases hstep.symm.trans (step_of_halted hs).1
    exact ⟨fun _ => rfl, absurd hs⟩
  · exact ⟨nofun, fun _ => .inl rfl⟩
  · exact ⟨nofun, absurd hs⟩

end Sys2Proof.Machine

/-! PROOFS. The exception family (60_exceptions.md): the fault a step reports, by the first check that fails (R183), what
that step changes (R182), and that a held fault ends with a reset alone (R185). -/

namespace Sys2Proof.Machine

/-! ### The fault a step reports, check by check (R183) -/

theorem step_and_result_of_fault_reported {s : State} {c : BitVec 3} (h : stepResult s = some (.fault c)) :
    step s = .next { s with fault := c } ∧ stepResult s = some (.fault c) :=
  ⟨step_of_fault_reported h, h⟩

theorem stepResult_of_illegal {s : State} {e : Invalid} (hf : s.fault = 0) (h : s.ip.toNat < 64)
    (he : decode (s.slot s.ip.toNat) = .error e) : stepResult s = some (.fault (invalidCause e).code) :=
  stepResult_of_raised hf (fetch_of_illegal h he)

section
variable {s : State} {i : Instr} (hf : s.fault = 0) (hi : fetch s = .ok i)
include hf hi

theorem stepResult_of_namesIp (h : .ip ∈ i.namedRegs) : stepResult s = some (.fault 4) := by
  rw [stepResult_of_fetched hf hi, if_neg (mt (namesNoIp_iff i).mp (not_not_intro h))]
  rfl

theorem stepResult_of_offset_ge {o : Offset} (hn : .ip ∉ i.namedRegs) (hio : i.offset? = some o)
    (ho : 768 ≤ o.toNat) : stepResult s = some (.fault 5) := by
  have hout : ¬ i.offsetInData = true := fun h => absurd ((offsetInData_iff i).mp h o hio) (Nat.not_lt.mpr ho)
  rw [stepResult_of_fetched hf hi, if_pos ((namesNoIp_iff i).mpr hn), if_neg hout]
  rfl

/-- With every check passed the step executes the instruction, and FAULT stays 0 (R183). -/
theorem step_of_checks_passed (hn : .ip ∉ i.namedRegs) (ho : i.offsetInData = true) :
    ∃ t, step s = .next t ∧ t.fault = 0 ∧ stepResult s = some (.executed i) := by
  have hr : stepResult s = some (.executed i) := by
    rw [stepResult_of_fetched hf hi, if_pos ((namesNoIp_iff i).mpr hn), if_pos ho]
  obtain ⟨-, -, -, -, hstep⟩ := step_of_executed hr
  exact ⟨effect i s, hstep, (effect_fault i s).trans hf, hr⟩

end

/-! ### The obligations of the family -/

/-- Settles O21: check by check in the order of R183, the first that fails gives the result, and the result of a fault
gives the step. -/
theorem stepReportsFirstFault : Obligations.StepReportsFirstFault := by
  refine ⟨fun s hf => ?_, fun s hf hip => ?_, fun s hf hip => ⟨fun he => ?_, fun he => ?_, fun i hdec => ?_⟩⟩
  · exact ⟨step_of_faulted hf, stepResult_of_faulted hf⟩
  · exact step_and_result_of_fault_reported (stepResult_of_raised hf (fetch_of_ge s hip))
  · exact step_and_result_of_fault_reported (stepResult_of_illegal hf hip he)
  · exact step_and_result_of_fault_reported (stepResult_of_illegal hf hip he)
  · have hi : fetch s = .ok i := fetch_eq_ok_iff.mpr ⟨hip, hdec⟩
    refine ⟨fun hn => ?_, fun hn ⟨o, hio, ho⟩ => ?_, fun hn ho => ?_⟩
    · exact step_and_result_of_fault_reported (stepResult_of_namesIp hf hi hn)
    · exact step_and_result_of_fault_reported (stepResult_of_offset_ge hf hi hn hio ho)
    · exact step_of_checks_passed hf hi hn ((offsetInData_iff i).mpr ho)

/-- Settles O22: the reported fault is all that the step changes; it is never 0, and from FAULT 0 at most 5. -/
theorem faultsArePrecise : Obligations.FaultsArePrecise := by
  intro s c hf h
  have hne : c ≠ 0 := reportedFault_ne_zero h
  exact ⟨step_of_fault_reported h, by bv_omega, reportedFault_le_five h (by simp [hf])⟩

/-- Settles O25: a step and an observation keep the faulted state, a load keeps FAULT, and a reset writes 0 to it. -/
theorem faultIsStickyUntilReset : Obligations.FaultIsStickyUntilReset := by
  intro op s t r hf h
  obtain ⟨rfl, -⟩ | ⟨p, r', rfl, hload⟩ | ⟨rfl, hstep⟩ | ⟨rfl, rfl⟩ | ⟨rfl, rfl⟩ := hostOp_cases h
  · exact ⟨fun _ => absurd rfl, nofun, nofun⟩
  · exact ⟨fun _ _ => load_fault hload, nofun, nofun⟩
  · cases hstep.symm.trans (step_of_faulted hf)
    exact ⟨fun _ _ => rfl, nofun, fun _ => rfl⟩
  · exact ⟨absurd rfl, fun _ => rfl, nofun⟩
  · exact ⟨fun _ _ => rfl, nofun, nofun⟩

end Sys2Proof.Machine

/-! PROOFS. The reset family (70_reset_and_hazards.md): the size check that turns a program away (R213, R215), what a load
that answers `Ok` leaves unchanged (R214), and the first step after reset (R212). -/

namespace Sys2Proof.Machine

/-! ### The two answers of a load (R213, R215) -/

theorem load_of_length_gt {p : List Instr} (s : State) (hp : 64 < p.length) :
    load p s = .next (s, .size (4 * p.length)) := by
  obtain ⟨t, r, h⟩ := load_completes p s
  obtain ⟨-, rfl, rfl⟩ | ⟨hle, -, -⟩ := load_cases h
  · exact h
  · omega

theorem load_of_length_le {p : List Instr} (s : State) (hp : p.length ≤ 64) : ∃ t, load p s = .next (t, .ok) := by
  obtain ⟨t, r, h⟩ := load_completes p s
  obtain ⟨hgt, -, -⟩ | ⟨-, -, rfl⟩ := load_cases h
  · omega
  · exact ⟨t, h⟩

/-! ### What a load leaves unchanged (R214) -/

/-- A program written from slot `j` on leaves every byte past its last slot. -/
theorem read_loadFrom_of_past {p : List Instr} {s t : State} {j a : Nat} (h : loadFrom s j p = .ok t)
    (ha : 4 * (j + p.length) ≤ a) : t.mem.read a = s.mem.read a := by
  induction p generalizing s j with
  | nil =>
    cases h
    rfl
  | cons i p ih =>
    obtain ⟨-, hrest⟩ := loadFrom_cons_ok h
    rw [List.length_cons] at ha
    rw [ih hrest (by omega), read_slotWritten_of_outside s.mem (encode i) (by omega)]

theorem read_load_of_past {p : List Instr} {s t : State} {r : LoadResult} (h : load p s = .next (t, r)) {a : Nat}
    (ha : 4 * p.length ≤ a) : t.mem.read a = s.mem.read a := by
  obtain ⟨-, rfl, -⟩ | ⟨-, hl, -⟩ := load_cases h
  · rfl
  · exact read_loadFrom_of_past hl (by omega)

theorem load_getReg {p : List Instr} {s t : State} {r : LoadResult} (h : load p s = .next (t, r)) (q : Reg) :
    t.getReg q = s.getReg q := by
  obtain ⟨m, rfl⟩ := exists_with_mem_of_load h
  exact getReg_with_mem s q m

/-! ### The obligations of the family -/

/-- Settles O31: the size check decides between the two answers of a load, and 65 instructions of 4 bytes are 260. -/
theorem oversizedProgramIsTurnedAway : Obligations.OversizedProgramIsTurnedAway := by
  refine ⟨fun _ s => load_of_length_gt s, fun _ s hp => load_of_length_le s hp.le, fun p s hp => ?_⟩
  rw [load_of_length_gt s (by omega), hp]

/-- Settles O32: the program fits, so the load answers `Ok`; its slots hold the encodings, and it changes the buffer
alone, there nothing past its last slot. -/
theorem loadWritesProgramOnly : Obligations.LoadWritesProgramOnly := by
  intro p s hp
  obtain ⟨t, h⟩ := load_of_length_le s hp
  obtain ⟨-, hslot⟩ := slot_load_of_ok h
  exact ⟨t, h, hslot, fun _ => read_load_of_past h, load_getReg h, load_fault h⟩

/-- Settles O4: every slot of the reset buffer holds the word of `Nop`, so the step at slot 0 fetches and executes it. -/
theorem firstStepAfterResetIsSlotZero : Obligations.FirstStepAfterResetIsSlotZero := by
  have hip : State.reset.ip.toNat < 64 := by decide
  have hfetch : fetch State.reset = .ok .nop := by
    rw [fetch_of_lt State.reset hip, slot_reset, decode_encode]
  exact ⟨rfl, step_reset_with_ip hip, stepResult_of_fetched rfl hfetch⟩

end Sys2Proof.Machine
